-- ==== Sys2Proof/Word.lean ====
section
/-! DEFINITION. The bit vectors of the block, one name for each width the spec gives (00_scope.md R5, R7). -/

namespace Sys2Proof

/-- A PixelIndex, and a colour field: `IDX_W = 3` bits, 0..7 (R5). -/
abbrev Index := BitVec 3

/-- A run length field: `RUN_W = 4` bits, 0..15 (R5). -/
abbrev RunLength := BitVec 4

/-- The input word on `in_data`, and what `seg.prev` holds: `IN_W = 4` bits (R5, R21, R60). -/
abbrev InWord := BitVec 4

/-- The word on the internal range bus: `BUS_W = 7` bits (R5, R62). -/
abbrev BusWord := BitVec 7

/-- One output byte: `OUT_W = 8` bits, bit 7 the most significant (R5, R7). -/
abbrev Byte := BitVec 8

end Sys2Proof
end

