-- ==== Sys2Proof/Config.lean ====
section
/-! DEFINITION. The parameters of 00_scope.md R5: the fixed ones with their values, the OPEN one without a value. -/

namespace Sys2Proof.Config

/-- The longest run the segmenter emits, `RUN_CAP` (R5). -/
def runCap : RunLength := 15

/-- How many empty placeholders a FLUSH pushes, `N_PLACEHOLDER` (R5, R133). -/
def nPlaceholder : Nat := 4

/-- The sentinel `SENT` that `seg.prev` holds when no run is pending (R21).
DESIGN CHOICE of the spec (D3), safe: no output depends on it (R87). Log 8. -/
def sent : InWord := 0b1000

/-- The most bytes one step may emit (R44, R135). -/
def maxStepBytes : Nat := 4

/-- By how much `OUT_DEPTH` exceeds the least capacity R188 allows. The spec leaves `OUT_DEPTH` OPEN (R5, U10), so this
has no body: nothing can be proved of its value. Log 9, safe. -/
opaque outSlack : Nat

/-- The capacity of `out_q`, `OUT_DEPTH`, at least 4 (R5, R188, 90_conflicts.md C8). -/
def outDepth : Nat := outSlack + maxStepBytes

end Sys2Proof.Config
end

