-- ==== Sys2Proof/Syntax.lean ====
section
/-! DEFINITION. The operations of 30_encoding.md R68 (the seven rows of spec/opcode_table.json) and the level each is at. -/

namespace Sys2Proof

/-- The operations of the opcode map (R68), one constructor a row of the table. -/
inductive Instr where
  /-- `PIX n`: one pixel, from the `in` port (R131). -/
  | pix (idx : Index)
  /-- `FLUSH`: end of image, from the `in` port (R133). Bits 2:0 of its word are ignored (R61), so it has no operand. -/
  | flush
  /-- `RESET`: the `rst` pin sampled 1 at a rising edge (R137). -/
  | reset
  /-- `SEG.PIX n`: the segmenter's micro-step for a pixel (R81). -/
  | segPix (idx : Index)
  /-- `SEG.FLUSH`: the segmenter's micro-step for the end of an image (R82). -/
  | segFlush
  /-- `CMP.PH`: the compactor's micro-step for a placeholder (R102); `color` is bits 2:0 of the bus word (R63). -/
  | cmpPh (color : Index)
  /-- `CMP.RANGE r, c`: the compactor's micro-step for a range (R101). -/
  | cmpRange (run : RunLength) (color : Index)
  deriving DecidableEq, Repr

/-- Where an operation's word stands: the column "level" of R68. The same bits mean different operations at different
levels, so a decoder is told the level. -/
inductive Level where
  /-- The block's `in` port, 4-bit words (R60). -/
  | inPort
  /-- The block's `rst` pin, 1 bit (R137). -/
  | rstPin
  /-- The segmenter alone, the same 4-bit words (R68, D16). -/
  | segmenter
  /-- The compactor alone, 7-bit bus words (R62, D16). -/
  | compactor
  deriving DecidableEq, Repr

/-- The width of a word at a level (R5, R60, R62, R137). -/
def Level.width : Level → Nat
  | .inPort => 4
  | .rstPin => 1
  | .segmenter => 4
  | .compactor => 7

/-- The level an operation is at (R68). -/
def Instr.level : Instr → Level
  | .pix _ => .inPort
  | .flush => .inPort
  | .reset => .rstPin
  | .segPix _ => .segmenter
  | .segFlush => .segmenter
  | .cmpPh _ => .compactor
  | .cmpRange _ _ => .compactor

end Sys2Proof
end

