-- ==== Sys2Proof/Machine/State.lean ====
section
/-! DEFINITION. The state of the block and of its surroundings, as plain data (10_state.md), and the state after reset. -/

namespace Sys2Proof.Machine

/-- A range `{run, color}` (R23, R62). -/
structure Range where
  /-- Run length, 0..15; 0 is an empty slot (R103). -/
  run : RunLength
  /-- PixelIndex. -/
  color : Index
  deriving DecidableEq, Repr

/-- `EMPTY = {run: 0, color: 0}` (R8, R23). -/
def Range.empty : Range := { run := 0, color := 0 }

/-- The segmenter's registers. -/
structure Segmenter where
  /-- `seg.prev`: the pending run's index, or `SENT` (R21). -/
  prev : InWord
  /-- `seg.count`: the pending run's length (R22). -/
  count : RunLength
  deriving DecidableEq, Repr

/-- The compactor's window `cmp.w[0..3]`, `w0` the oldest slot and `w3` the newest (R23, R24). -/
structure Window where
  w0 : Range
  w1 : Range
  w2 : Range
  w3 : Range
  deriving DecidableEq, Repr

/-- The window with every slot `EMPTY`: its reset value (R23, R31). -/
def Window.empty : Window := { w0 := .empty, w1 := .empty, w2 := .empty, w3 := .empty }

/-- A value for every register of the block: those of R20, the bus, and the step in progress. -/
structure Registers where
  /-- `seg.prev` and `seg.count` (R21, R22). -/
  seg : Segmenter
  /-- `cmp.w[0..3]` (R23). -/
  win : Window
  /-- `out_q` (R25). -/
  outQ : List Byte
  /-- The range bus (R132). -/
  bus : Option BusWord
  /-- The word whose step is in progress (R44). -/
  inProgress : Option InWord
  deriving DecidableEq, Repr

/-- One rising edge of `clk` as the host has scheduled it: the four input pins (R43), then the free draws for that cycle, on
which the spec says nothing more: the implementation's four (U11 to U14; log 3), and two that are read only before the first
reset after power-on (U15; log 18). -/
structure Edge where
  /-- Pin `rst` (R137). -/
  rst : Bool
  /-- Pin `in_valid`: the host offers `inData` (R43). -/
  inValid : Bool
  /-- Pins `in_data` (R43, R60). -/
  inData : InWord
  /-- Pin `out_ready`: the host takes a byte (R43). -/
  outReady : Bool
  /-- Draw: `in_ready` may be 1 where R44's three conditions allow it (U12). -/
  readyDraw : Bool
  /-- Draw: `out_valid` is 1 if `out_q` is not empty (R45, U13). -/
  validDraw : Bool
  /-- Draw: what `out_data` shows while `out_valid` is 0 (R45, U14). -/
  dataDraw : Byte
  /-- Draw: the step in progress, or the one started at this edge, completes at this edge (LATENCY, R5, U11). -/
  doneDraw : Bool
  /-- Draw: what `idle` shows before the first reset (R182, U15). -/
  idleDraw : Bool
  /-- Draw: what the registers hold after this edge before the first reset (R182, U15). -/
  powerDraw : Registers
  deriving DecidableEq, Repr

/-- What happens next to the machine from outside. -/
inductive Drive where
  /-- A rising edge of `clk`: the only drive the block's ports know (R43). -/
  | edge (e : Edge)
  /-- The segmenter alone gets a word, as in the vectors T-S (R68, D16). No port of the block does this; log 4. -/
  | seg (w : InWord)
  /-- The compactor alone gets a bus word, as in the vectors T-C (R68, D16). No port of the block does this; log 4. -/
  | cmp (w : BusWord)
  deriving DecidableEq, Repr

/-- What has happened at the block's ports. -/
inductive PortEvent where
  /-- The `in` port accepted this word (R41, R43). -/
  | word (w : InWord)
  /-- The `out` port transferred this byte (R42, R45). -/
  | byte (b : Byte)
  /-- A rising edge with `rst == 1` (R137). -/
  | rst
  /-- A cycle, recorded at its edge, in which `idle` was 1 (R46, R190). -/
  | idle
  deriving DecidableEq, Repr

/-- The machine's state. -/
structure State where
  /-- `seg.prev` and `seg.count` (R20 to R22). -/
  seg : Segmenter
  /-- `cmp.w[0..3]` (R20, R23). -/
  win : Window
  /-- `out_q`, oldest byte first (R20, R25). -/
  outQ : List Byte
  /-- The word on the range bus, if any; nothing between top-level steps (R62, R132). -/
  bus : Option BusWord
  /-- The accepted word, normalised by R61, whose step is not done yet, if any (R44, R46, R137). -/
  inProgress : Option InWord
  /-- A reset edge has come since power-on: before one, every register and every output is unspecified (R182; log 18). -/
  booted : Bool
  /-- The drives the host has scheduled, first one next (the model's own; log 2). -/
  pending : List Drive
  /-- What has happened at the ports, newest first (the model's own record; nothing in the block reads it; log 7). -/
  trace : List PortEvent
  deriving DecidableEq, Repr

/-- The block has no fault (R160, R164, R171): there is no reason to name, so nobody raises one. -/
inductive Fault where
  deriving DecidableEq, Repr

/-- Why an operation has no meaning here. -/
inductive Refusal where
  /-- Raised only by an arm of `exec` whose instruction has no meaning yet; there is none such. Safe. -/
  | notModelled (mnemonic : String)
  deriving DecidableEq, Repr

/-- The segmenter's reset value: no run pending, `seg.count = 1` (R21, R22, R31). -/
def Segmenter.reset : Segmenter := { prev := Config.sent, count := 1 }

/-- Every register at its reset value (R31): `out_q` empty, no step in progress, nothing on the bus (R132; log 5). -/
def Registers.reset : Registers := { seg := .reset, win := .empty, outQ := [], bus := none, inProgress := none }

/-- The machine after reset (R31, R180): the registers at the spec's reset values. The model's own fields start empty: DESIGN
CHOICE, safe; log 2, log 7. -/
def State.reset : State :=
  { seg := .reset, win := .empty, outQ := [], bus := none, inProgress := none, booted := true, pending := [], trace := [] }

/-- The machine after power-on and before the first reset: its registers hold any values at all (R182, U15; log 18). -/
def State.powerOn (u : Registers) (drives : List Drive) : State :=
  { seg := u.seg, win := u.win, outQ := u.outQ, bus := u.bus, inProgress := u.inProgress, booted := false,
    pending := drives, trace := [] }

end Sys2Proof.Machine
end

