-- ==== Sys2Proof/Machine/Flags.lean ====
section
/-! DEFINITION. The block has no condition codes; these are the two tests that play the role of flags (10_state.md R27). -/

namespace Sys2Proof.Machine

/-- No run is pending: `seg.prev == SENT` (R21, R27). -/
def Segmenter.nothingPending (g : Segmenter) : Bool := g.prev == Config.sent

/-- The slot is empty: `run == 0` (R27, R103). -/
def Range.isEmpty (r : Range) : Bool := r.run == 0

end Sys2Proof.Machine
end

