-- ==== Sys2Proof/Decode.lean ====
section
/-! DEFINITION. From words to operations and back (30_encoding.md R60 to R63, R67, R68). A word is stored in one byte, in its
low bits; the bits above the word are 0. -/

namespace Sys2Proof

/-- `F`, bit 3 of an input word (R60, R67). -/
def inFlag (w : InWord) : Bool := w.getLsbD 3

/-- `idx`, bits 2:0 of an input word (R60, R67). -/
def inIndex (w : InWord) : Index := w.extractLsb' 0 3

/-- `run`, bits 6:3 of a bus word (R62, R67). -/
def busRun (w : BusWord) : RunLength := w.extractLsb' 3 4

/-- `color`, bits 2:0 of a bus word (R62, R67). -/
def busColor (w : BusWord) : Index := w.extractLsb' 0 3

/-- The top-level operation of a word on the `in` port: bit 3 alone selects it (R60, R61, R68). No word is illegal (R69). -/
def decodeIn (w : InWord) : Instr :=
  if inFlag w then .flush else .pix (inIndex w)

/-- The segmenter's micro-operation for an input word (R68). -/
def decodeSeg (w : InWord) : Instr :=
  if inFlag w then .segFlush else .segPix (inIndex w)

/-- The compactor's micro-operation for a bus word: bits 6:3 alone select it (R63, R68). No word is illegal (R69). -/
def decodeBus (w : BusWord) : Instr :=
  if busRun w = 0 then .cmpPh (busColor w) else .cmpRange (busRun w) (busColor w)

/-- Why bytes are no operation at a level. -/
inductive DecodeError where
  /-- There is no byte to read. -/
  | noByte
  /-- A bit above the level's word is set: the byte holds no word of that width (R60, R62, R71). -/
  | tooWide
  /-- The `rst` pin is 0: only 1 selects RESET (R68, R137). -/
  | rstLow
  deriving DecidableEq, Repr

/-- The operation in one byte at a level, or why there is none. -/
def decodeByte (l : Level) (b : Byte) : Except DecodeError Instr :=
  if b.toNat < 2 ^ l.width then
    match l with
    | .inPort => .ok (decodeIn (b.extractLsb' 0 4))
    | .rstPin => if b.getLsbD 0 then .ok .reset else .error .rstLow
    | .segmenter => .ok (decodeSeg (b.extractLsb' 0 4))
    | .compactor => .ok (decodeBus (b.extractLsb' 0 7))
  else .error .tooWide

/-- The operation at the head of a list of bytes at a level, with the bytes after it: every word is one byte (R71). -/
def decode (l : Level) : List Byte → Except DecodeError (Instr × List Byte)
  | [] => .error .noByte
  | b :: rest =>
    match decodeByte l b with
    | .ok i => .ok (i, rest)
    | .error e => .error e

/-- The bus word of a range: `word = run << 3 | color` (R62). -/
def busWord (run : RunLength) (color : Index) : BusWord := run ++ color

/-- The byte that holds an operation's word, canonical where the spec leaves bits out: FLUSH is 0x8 (R60 to R63, R68). -/
def encode : Instr → Byte
  | .pix idx => 0#5 ++ idx
  | .flush => 0x08
  | .reset => 0x01
  | .segPix idx => 0#5 ++ idx
  | .segFlush => 0x08
  | .cmpPh color => 0#5 ++ color
  | .cmpRange run color => 0#1 ++ busWord run color

/-- The level at which a bare word of the opcode table is read. A width of 1, 4 or 7 names the format (RST1, IN4, BUS7). A
width rounded up to whole bytes names none: a word of at most 4 bits is then read as what the block's own `in` port would
take, and a longer one as a bus word, the only format it fits. DESIGN CHOICE, safe; log 13. -/
def tableLevel (nbits w : Nat) : Level :=
  if nbits = 1 then .rstPin
  else if nbits = 7 then .compactor
  else if w < 2 ^ Level.inPort.width then .inPort
  else .compactor

/-- The operation this decoder reads from a row's bits `w`, numbered as spec/opcode_table.json numbers them. -/
def decodeTableWord (nbits w : Nat) : Option Instr :=
  if w < 256 then
    match decode (tableLevel nbits w) [BitVec.ofNat 8 w] with
    | .ok (i, _) => some i
    | .error _ => none
  else none

end Sys2Proof
end

