-- ==== Sys2Proof/Machine/Operands.lean ====
section
/-! DEFINITION. The operand forms: an index as a segmenter word, a range as a bus word, and the two layouts of an output byte
(30_encoding.md R60 to R67). -/

namespace Sys2Proof.Machine

/-- `zext_4(n)`: an index as a segmenter word (R8, R81). -/
def segWord (n : Index) : InWord := n.setWidth 4

/-- A word accepted on `in`, with every FLUSH word made `SENT` (R61). -/
def normalise (w : InWord) : InWord := if inFlag w then Config.sent else w

/-- `seg.prev[2:0]`, the colour of the pending run (R80). -/
def Segmenter.color (g : Segmenter) : Index := g.prev.extractLsb' 0 3

/-- The bus word of a range (R62). -/
def Range.toBus (r : Range) : BusWord := busWord r.run r.color

/-- The range of a bus word (R62, R67). -/
def Range.ofBus (w : BusWord) : Range := { run := busRun w, color := busColor w }

/-- The range byte `1 ++ run ++ color` (R65). -/
def rangeByte (run : RunLength) (color : Index) : Byte := 1#1 ++ run ++ color

/-- The colour byte `0 ++ c1 ++ copy ++ c2` (R66). -/
def colourByte (c1 : Index) (copy : Bool) (c2 : Index) : Byte := 0#1 ++ c1 ++ BitVec.ofBool copy ++ c2

/-- `tag = b[7]` (R64, R67): set on a range byte. -/
def byteTag (b : Byte) : Bool := b.getLsbD 7

/-- `run = b[6:3]` of a range byte (R67). -/
def byteRun (b : Byte) : RunLength := b.extractLsb' 3 4

/-- `color = b[2:0]` of a range byte (R67). -/
def byteColor (b : Byte) : Index := b.extractLsb' 0 3

/-- `c1 = b[6:4]` of a colour byte (R67). -/
def byteFirst (b : Byte) : Index := b.extractLsb' 4 3

/-- `copy = b[3]` of a colour byte (R67). -/
def byteCopy (b : Byte) : Bool := b.getLsbD 3

/-- `c2 = b[2:0]` of a colour byte (R67). -/
def byteSecond (b : Byte) : Index := b.extractLsb' 0 3

end Sys2Proof.Machine
end

