-- ==== Sys2Proof/Machine/Ops.lean ====
section
/-! DEFINITION. The named operations on the state: its updates, the segmenter's step, the compactor's shift and decision, the
range bus, reset. The spec has no exception, so there is no operation that takes one (60_exceptions.md R160, R164). -/

namespace Sys2Proof.Machine

/-! ### Updates of one field -/

/-- Write the segmenter's registers. -/
def State.setSeg (s : State) (g : Segmenter) : State := { s with seg := g }

/-- Write the compactor's window. -/
def State.setWin (s : State) (w : Window) : State := { s with win := w }

/-- `emit`, for each byte of a list in order: append to the tail of `out_q` (R42). -/
def State.emitAll (s : State) (bs : List Byte) : State := { s with outQ := s.outQ ++ bs }

/-- Write `out_q`. -/
def State.setOutQ (s : State) (q : List Byte) : State := { s with outQ := q }

/-- Put a word on the range bus, or take it off (R132). -/
def State.setBus (s : State) (b : Option BusWord) : State := { s with bus := b }

/-- Note the word whose step is in progress, or that none is (R44). -/
def State.setInProgress (s : State) (w : Option InWord) : State := { s with inProgress := w }

/-- Write every register of the block at once (R182). -/
def State.setRegisters (s : State) (u : Registers) : State :=
  { s with seg := u.seg, win := u.win, outQ := u.outQ, bus := u.bus, inProgress := u.inProgress }

/-- Note whether a reset has come since power-on (R182). -/
def State.setBooted (s : State) (b : Bool) : State := { s with booted := b }

/-- Replace the scheduled drives. -/
def State.setPending (s : State) (ds : List Drive) : State := { s with pending := ds }

/-- Record what happened at a port. -/
def State.log (s : State) (ev : PortEvent) : State := { s with trace := ev :: s.trace }

/-! ### The segmenter -/

/-- `seg_step`'s first branch is taken (R80). -/
def Segmenter.breaks (g : Segmenter) (x : InWord) : Bool := x != g.prev || g.count == Config.runCap

/-- The registers after `seg_step(x)` (R80). -/
def Segmenter.next (g : Segmenter) (x : InWord) : Segmenter :=
  if g.breaks x then { prev := x, count := 1 } else { prev := x, count := g.count + 1 }

/-- The range `seg_step(x)` returns, if any (R80). -/
def Segmenter.out (g : Segmenter) (x : InWord) : Option Range :=
  if g.breaks x && !g.nothingPending then some { run := g.count, color := g.color } else none

/-- `r <- seg_step(x)`, and if `r` is not none `seg_emit(r)` (R80 to R82): the bus holds the range, or nothing. -/
def segStep (x : InWord) (s : State) : State :=
  (s.setSeg (s.seg.next x)).setBus ((s.seg.out x).map Range.toBus)

/-! ### The compactor -/

/-- The shift: `w[0] <- w[1]; w[1] <- w[2]; w[2] <- w[3]; w[3] <- e` (R24, R103). -/
def Window.shift (w : Window) (e : Range) : Window := { w0 := w.w1, w1 := w.w2, w2 := w.w3, w3 := e }

/-- The four cases of the decision (R104 to R107). -/
inductive Case where
  /-- Case 1, alternating pair (R104). -/
  | alternating
  /-- Case 2, singleton absorption (R105). -/
  | absorption
  /-- Case 3, plain range (R106). -/
  | plain
  /-- Case 4, empty (R107). -/
  | nothing
  deriving DecidableEq, Repr

/-- The condition of case 1 (R104). -/
def Window.alternates (w : Window) : Bool :=
  w.w0.run == 1 && w.w1.run == 1 && w.w2.run == 1 && w.w3.run == 1
    && w.w0.color == w.w2.color && w.w1.color == w.w3.color

/-- The case taken: the first whose condition holds (R103, R109). -/
def Window.caseTaken (w : Window) : Case :=
  if w.alternates then .alternating
  else if w.w0.run == 1 && !w.w1.isEmpty then .absorption
  else if !w.w0.isEmpty then .plain
  else .nothing

/-- The byte the decision emits, if any (R104 to R107). -/
def Window.emitted (w : Window) : Option Byte :=
  match w.caseTaken with
  | .alternating => some (colourByte w.w0.color true w.w1.color)
  | .absorption => some (colourByte w.w0.color false w.w1.color)
  | .plain => some (rangeByte w.w0.run w.w0.color)
  | .nothing => none

/-- The window after the decision (R104 to R107). -/
def Window.decided (w : Window) : Window :=
  match w.caseTaken with
  | .alternating => .empty
  | .absorption => { w with w0 := .empty, w1 := { w.w1 with run := w.w1.run - 1 } }
  | .plain => { w with w0 := .empty }
  | .nothing => w

/-- `cmp_step(e)`: shift, then decide (R103). The range came over the bus, which holds nothing afterwards (R132). -/
def cmpStep (e : Range) (s : State) : State :=
  let w := s.win.shift e
  ((s.setWin w.decided).emitAll w.emitted.toList).setBus none

/-- "if r is not none: cmp_step(r)": the compactor takes the range on the bus, if there is one (R131 to R133). -/
def takeBus (s : State) : State :=
  match s.bus with
  | some w => cmpStep (Range.ofBus w) s
  | none => s

/-- `cmp_step(EMPTY)`, `n` times (R133). -/
def pushPlaceholders : Nat → State → State
  | 0, s => s
  | n + 1, s => pushPlaceholders n (cmpStep .empty s)

/-! ### Reset -/

/-- Every register takes its reset value, `out_q` is emptied, the step in progress is abandoned (R31, R137), and the registers
are specified from here on (R182). What the host has scheduled, and what has happened at the ports, stay (R181). -/
def resetBlock (s : State) : State := (s.setRegisters .reset).setBooted true

end Sys2Proof.Machine
end

