-- ==== Sys2Proof/Machine/Compactor.lean ====
section
/-! DEFINITION. The compactor's micro-operations (41_compactor.md R101, R102). -/

namespace Sys2Proof.Machine

/-- `CMP.RANGE r, c` (R101). -/
def execCmpRange (run : RunLength) (color : Index) (s : State) : Host.Outcome State Fault Refusal :=
  .next (cmpStep { run := run, color := color } s)

/-- `CMP.PH`, with the colour its bus word holds (R102). -/
def execCmpPh (color : Index) (s : State) : Host.Outcome State Fault Refusal :=
  .next (cmpStep { run := 0, color := color } s)

end Sys2Proof.Machine
end

