-- ==== Sys2Proof/Machine/Segmenter.lean ====
section
/-! DEFINITION. The segmenter's micro-operations (40_segmenter.md R81, R82). -/

namespace Sys2Proof.Machine

/-- `SEG.PIX n` (R81). -/
def execSegPix (n : Index) (s : State) : Host.Outcome State Fault Refusal :=
  .next (segStep (segWord n) s)

/-- `SEG.FLUSH` (R82). -/
def execSegFlush (s : State) : Host.Outcome State Fault Refusal :=
  .next (segStep Config.sent s)

end Sys2Proof.Machine
end

