-- ==== Sys2Proof/Machine/TopLevel.lean ====
section
/-! DEFINITION. The block's top-level operations (42_top_level.md R131, R133, R137). -/

namespace Sys2Proof.Machine

/-- `PIX n`: the segmenter's step, then the compactor's if a range came out (R131). -/
def execPix (n : Index) (s : State) : Host.Outcome State Fault Refusal :=
  .next (takeBus (segStep (segWord n) s))

/-- `FLUSH`: the segmenter's step on `SENT`, the compactor's if a range came out, then four placeholders (R133). -/
def execFlush (s : State) : Host.Outcome State Fault Refusal :=
  .next (pushPlaceholders Config.nPlaceholder (takeBus (segStep Config.sent s)))

/-- `RESET` (R137). -/
def execReset (s : State) : Host.Outcome State Fault Refusal :=
  .next (resetBlock s)

end Sys2Proof.Machine
end

