-- ==== Sys2Proof/Machine/Dispatch.lean ====
section
/-! DEFINITION. One arm per operation. -/

namespace Sys2Proof.Machine

/-- What an operation does (30_encoding.md R68). -/
def exec (i : Instr) (s : State) : Host.Outcome State Fault Refusal :=
  match i with
  | .pix idx => Sys2Proof.Machine.execPix idx s
  | .flush => Sys2Proof.Machine.execFlush s
  | .reset => Sys2Proof.Machine.execReset s
  | .segPix idx => Sys2Proof.Machine.execSegPix idx s
  | .segFlush => Sys2Proof.Machine.execSegFlush s
  | .cmpPh color => Sys2Proof.Machine.execCmpPh color s
  | .cmpRange run color => Sys2Proof.Machine.execCmpRange run color s

end Sys2Proof.Machine
end

