-- ==== Sys2Proof/Machine/Ports.lean ====
section
/-! DEFINITION. The ports (20_memory.md R43 to R46): the status outputs as functions of the state and the cycle, and what an
edge does to the two streams. Before the first reset after power-on every output is a free draw (70_reset_and_hazards.md R182). -/

namespace Sys2Proof.Machine

/-- `out_q` can take every byte the next step might emit, up to 4 (R44). An empty queue always can, since `OUT_DEPTH` is at
least 4 (R188). -/
def State.hasRoom (s : State) : Bool :=
  s.outQ.isEmpty || decide (s.outQ.length + Config.maxStepBytes ≤ Config.outDepth)

/-- `in_ready` in a cycle: 0 under each of R44's three conditions, else the cycle's free draw; before the first reset the
draw alone (R182). -/
def inReady (e : Edge) (s : State) : Bool :=
  if s.booted then !e.rst && s.inProgress.isNone && s.hasRoom && e.readyDraw else e.readyDraw

/-- `out_valid` in a cycle: 0 while `out_q` is empty, else the cycle's free draw (R45); before the first reset the draw alone
(R182). -/
def outValid (e : Edge) (s : State) : Bool :=
  if s.booted then !s.outQ.isEmpty && e.validDraw else e.validDraw

/-- `out_data` in a cycle: the head of `out_q` while `out_valid` is 1, else the cycle's free draw (R45); before the first reset
the draw alone (R182). -/
def outData (e : Edge) (s : State) : Byte :=
  match s.booted && outValid e s, s.outQ with
  | true, b :: _ => b
  | _, _ => e.dataDraw

/-- No step in progress and `out_q` empty: what `idle` shows once the block has been reset (R46). -/
def State.idle (s : State) : Bool := s.inProgress.isNone && s.outQ.isEmpty

/-- `idle` in a cycle (R46); before the first reset the cycle's free draw (R182). -/
def idleOut (e : Edge) (s : State) : Bool := if s.booted then s.idle else e.idleDraw

/-- A word is accepted at this edge: `in_valid`, `in_ready`, and no reset (R43). -/
def accepts (e : Edge) (s : State) : Bool := e.inValid && inReady e s && !e.rst

/-- A byte is transferred at this edge: `out_valid`, `out_ready`, and no reset (R45). -/
def transfers (e : Edge) (s : State) : Bool := outValid e s && e.outReady && !e.rst

/-- The host sees `idle` in the cycle of this edge (R190). -/
def watchIdle (e : Edge) (s : State) : State := if idleOut e s then s.log .idle else s

/-- The transfer on `out`: the head byte leaves `out_q` for the host (R42, R45). -/
def transferOut (e : Edge) (s : State) : State :=
  if transfers e s then
    match s.outQ with
    | b :: q => (s.setOutQ q).log (.byte b)
    | [] => s
  else s

/-- The acceptance on `in`: a step starts on the word, normalised (R41, R43, R61). Whether one is accepted is judged on
`before`, the state as it stood before the edge (R163). -/
def acceptIn (e : Edge) (before s : State) : State :=
  if accepts e before then (s.setInProgress (some (normalise e.inData))).log (.word e.inData) else s

/-- An edge without `rst` before the first reset: the host may see a byte or a word go over by the hand-shake of R43 and R45,
and the registers are unspecified afterwards as before (R182). -/
def unbootedEdge (e : Edge) (s : State) : State :=
  let s₁ := watchIdle e s
  let s₂ := if transfers e s then s₁.log (.byte (outData e s)) else s₁
  let s₃ := if accepts e s then s₂.log (.word e.inData) else s₂
  s₃.setRegisters e.powerDraw

end Sys2Proof.Machine
end

