-- ==== Sys2Proof/Machine/Clock.lean ====
section
/-! DEFINITION. One rising edge of `clk`, and one drive of a sub-unit alone. -/

namespace Sys2Proof.Machine

/-- The step in progress completes, if there is one and this cycle's draw says so: all its micro-steps at once, as the host
sees it (R44, R51, R130). -/
def finishStep (e : Edge) (s : State) : Host.Outcome State Fault Refusal :=
  match s.inProgress, e.doneDraw with
  | some w, true => exec (decodeIn w) (s.setInProgress none)
  | _, _ => .next s

/-- One rising edge (R43 to R45, R137, R163): with `rst` the reset and nothing else; without it the transfer on `out`, the
acceptance on `in`, then the step if it completes now; before the first reset nothing specified (R182). -/
def clockEdge (e : Edge) (s : State) : Host.Outcome State Fault Refusal :=
  if e.rst then exec .reset ((watchIdle e s).log .rst)
  else if s.booted then finishStep e (acceptIn e s (transferOut e (watchIdle e s)))
  else .next (unbootedEdge e s)

/-- What a drive does to the machine. -/
def runDrive (d : Drive) (s : State) : Host.Outcome State Fault Refusal :=
  match d with
  | .edge e => clockEdge e s
  | .seg w => exec (decodeSeg w) s
  | .cmp w => exec (decodeBus w) s

/-- The edge at which a host offers a word and the block takes it and completes its step: no reset, no transfer on `out`. -/
def offerEdge (w : InWord) : Edge :=
  { rst := false, inValid := true, inData := w, outReady := false, readyDraw := true, validDraw := false, dataDraw := 0,
    doneDraw := true, idleDraw := false, powerDraw := .reset }

/-- The edge at which a host offers nothing and takes the head of `out_q`, which the block presents. -/
def takeEdge : Edge :=
  { rst := false, inValid := false, inData := 0, outReady := true, readyDraw := false, validDraw := true, dataDraw := 0,
    doneDraw := true, idleDraw := false, powerDraw := .reset }

/-- An edge with `rst == 1` and nothing offered. -/
def resetEdge : Edge :=
  { rst := true, inValid := false, inData := 0, outReady := false, readyDraw := false, validDraw := false, dataDraw := 0,
    doneDraw := false, idleDraw := false, powerDraw := .reset }

/-- The drive that presents an operation at its level: its word on the `in` port, the `rst` pin, or a sub-unit's own word. -/
def driveOf (i : Instr) : Drive :=
  match i.level with
  | .inPort => .edge (offerEdge ((encode i).extractLsb' 0 4))
  | .rstPin => .edge resetEdge
  | .segmenter => .seg ((encode i).extractLsb' 0 4)
  | .compactor => .cmp ((encode i).extractLsb' 0 7)

/-- The drive that presents a byte's word at a level. -/
def driveOfByte (l : Level) (b : Byte) : Drive :=
  match l with
  | .inPort => .edge (offerEdge (b.extractLsb' 0 4))
  | .rstPin => .edge resetEdge
  | .segmenter => .seg (b.extractLsb' 0 4)
  | .compactor => .cmp (b.extractLsb' 0 7)

/-- The state made ready to accept a word: reset once, no step in progress, and room in `out_q` (as when the host has drained
it). -/
def readyToAccept (s : State) : State :=
  ((s.setInProgress none).setOutQ (if s.hasRoom then s.outQ else [])).setBooted true

/-- The state with a table row's word presented as the very next drive. -/
def presentWord (s : State) (nbits w : Nat) : State :=
  let l := tableLevel nbits w
  let s' := if l = .inPort then readyToAccept s else s
  s'.setPending (driveOfByte l (BitVec.ofNat 8 w) :: s'.pending)

end Sys2Proof.Machine
end

