-- ==== Sys2Proof/Machine/Step.lean ====
section
/-! DEFINITION. One step of the machine: the next scheduled drive. The block fetches nothing (20_memory.md R54). -/

namespace Sys2Proof.Machine

/-- One step: the next scheduled drive happens. With none scheduled there is no clock edge, and nothing changes (R43, R166,
R170). -/
def step (s : State) : Host.Outcome State Fault Refusal :=
  match s.pending with
  | [] => .next s
  | d :: rest => runDrive d (s.setPending rest)

/-- `s` with a table row's word presented so that the very next step takes and runs it (log 12, log 13). -/
def State.withFetchWord (s : State) (nbits w : Nat) : State := presentWord s nbits w

end Sys2Proof.Machine
end

