-- ==== Sys2Proof/Machine/HostSide.lean ====
section
/-! DEFINITION. A host that does what 70_reset_and_hazards.md R183 requires: reset after power-on, then for each image its words,
its FLUSH, and the taking of bytes until `idle`. It watches only the ports. -/

namespace Sys2Proof.Machine

/-- What the host is doing. -/
inductive HostPhase where
  /-- Asserting `rst`, for this many edges more after the next (R183, 1). -/
  | boot (more : Nat)
  /-- Sending the words left of an image, the last a FLUSH (R183, 2); `w` is offered next. -/
  | send (w : InWord) (later : List InWord)
  /-- Taking bytes until `idle` is 1 (R183, 3). -/
  | drain
  /-- Every image is done. -/
  | done
  deriving DecidableEq, Repr

/-- The host: what it is doing, and the images it has not started. -/
structure HostSide where
  phase : HostPhase
  images : List (List Index)
  deriving DecidableEq, Repr

/-- A host at power-on with images to send, which will assert `rst` for `more + 1` edges (R183). -/
def HostSide.atPowerOn (more : Nat) (images : List (List Index)) : HostSide := { phase := .boot more, images := images }

/-- The words of the `PIX` operations of an image, and its FLUSH, canonically 0x8 (R60, R61, R184). -/
def imageWords (p : List Index) : List InWord := p.map segWord ++ [Config.sent]

/-- The host turns to these words, or has none to send. -/
def sendPhase : List InWord → HostPhase
  | [] => .drain
  | w :: ws => .send w ws

/-- The host turns to its next image, if it has one. -/
def HostSide.nextImage (h : HostSide) : HostSide :=
  match h.images with
  | [] => { phase := .done, images := [] }
  | p :: ps => { phase := sendPhase (imageWords p), images := ps }

/-- The pins the host drives at an edge. When it may hold `in_valid` or `out_ready` at 0 (R47) is left to `d`, as are the
block's draws. -/
def HostSide.edge (h : HostSide) (d : Edge) : Edge :=
  match h.phase with
  | .boot _ => { d with rst := true }
  | .send w _ => { d with rst := false, inData := w }
  | .drain => { d with rst := false, inValid := false }
  | .done => { d with rst := false, inValid := false }

/-- What the host turns to after an edge, from what it saw at the ports in that cycle (R183). -/
def HostSide.next (h : HostSide) (e : Edge) (s : State) : HostSide :=
  match h.phase with
  | .boot 0 => h.nextImage
  | .boot (n + 1) => { h with phase := .boot n }
  | .send _ ws => if accepts e s then { h with phase := sendPhase ws } else h
  | .drain => if idleOut e s then h.nextImage else h
  | .done => h

/-- Host and block over a list of edges, of which the host sets its own pins. -/
def hostRun : List Edge → HostSide → State → HostSide × State
  | [], h, s => (h, s)
  | d :: ds, h, s =>
    match step (s.setPending [.edge (h.edge d)]) with
    | .next t => hostRun ds (h.next (h.edge d) s) t
    | .fault _ => (h, s)
    | .refused _ => (h, s)

/-- Where the host puts an image's bytes: behind the 16 palette bytes, which are not the block's (R48; R183, 4). -/
def imageFile (palette : Vector Byte 16) (bytes : List Byte) : List Byte := palette.toList ++ bytes

end Sys2Proof.Machine
end

