-- ==== Sys2Proof/WellFormed.lean ====
section
/-! DEFINITION. Which operations have an encoding. -/

namespace Sys2Proof

/-- Every operation is well formed but a `CMP.RANGE` with run 0: its run is 1..15 (R101), and a bus word with run 0 is
`CMP.PH` (R63, R68). -/
def Instr.wellFormed : Instr → Bool
  | .pix _ => true
  | .flush => true
  | .reset => true
  | .segPix _ => true
  | .segFlush => true
  | .cmpPh _ => true
  | .cmpRange run _ => run != 0

end Sys2Proof
end

