-- ==== Sys2Proof/Machine/Trace.lean ====
section
/-! DEFINITION. The assembler and trace spelling of 30_encoding.md R72, as data: lines, the pseudo-instructions' expansions, and
the drives that present a program to the block. -/

namespace Sys2Proof.Machine

/-- One line of a program or of a micro-step trace (R72). -/
inductive Line where
  /-- An operation under its own name. -/
  | op (i : Instr)
  /-- `; text`. -/
  | comment (text : String)
  /-- `RUN c, n`, with `n >= 1`. -/
  | run (c : Index) (n : Nat)
  /-- `IMAGE c0, c1, ..., ck`; with no operand the empty image. -/
  | image (cs : List Index)
  deriving DecidableEq, Repr

/-- A line R72 allows. -/
def Line.wellFormed : Line → Bool
  | .op i => i.wellFormed
  | .comment _ => true
  | .run _ n => 1 ≤ n
  | .image _ => true

/-- The operations a line stands for (R72). -/
def Line.ops : Line → List Instr
  | .op i => [i]
  | .comment _ => []
  | .run c n => List.replicate n (.pix c)
  | .image cs => cs.map .pix ++ [.flush]

/-- The operations of a program, in order (R72). -/
def assemble (p : List Line) : List Instr := p.flatMap Line.ops

/-- An operation as text (R72). -/
def opText : Instr → String
  | .pix n => "PIX " ++ toString n.toNat
  | .flush => "FLUSH"
  | .reset => "RESET"
  | .segPix n => "SEG.PIX " ++ toString n.toNat
  | .segFlush => "SEG.FLUSH"
  | .cmpPh _ => "CMP.PH"
  | .cmpRange r c => "CMP.RANGE " ++ toString r.toNat ++ ", " ++ toString c.toNat

/-- The words of the operations behind the last `RESET`, in order: what the host sends on the `in` port since then (R41, R72). -/
def wordsBehindReset (is : List Instr) : List InWord :=
  (is.reverse.takeWhile (fun i => i != .reset)).reverse.map (fun i => (encode i).extractLsb' 0 4)

/-- The drives with which a host gets one operation done and takes its bytes: a word is offered, then the host takes what the
step emitted, at most `maxStepBytes` bytes (R135), so that `out_q` is empty again for the next word whatever `OUT_DEPTH` is. -/
def opDrives (i : Instr) : List Drive :=
  match i.level with
  | .inPort => driveOf i :: List.replicate Config.maxStepBytes (.edge takeEdge)
  | .rstPin => [driveOf i]
  | .segmenter => [driveOf i]
  | .compactor => [driveOf i]

/-- The drives that get a program done from the reset state, the host taking every byte (95_test_vectors.md section 3). -/
def programDrives (p : List Line) : List Drive := (assemble p).flatMap opDrives

/-- The same from power-on: the host first asserts `rst` (R182, R183). -/
def bootDrives (p : List Line) : List Drive := .edge resetEdge :: programDrives p

end Sys2Proof.Machine
end

