-- ==== Sys2Proof/Machine/Checker.lean ====
section
/-! DEFINITION. The reference decoder, which is no part of the block: what an output byte means (45_reference_decoder.md), and
how it is written in a trace (30_encoding.md R72). -/

namespace Sys2Proof.Machine

/-- The pixels one output byte stands for (R150). -/
def expand (b : Byte) : List Index :=
  if byteTag b then List.replicate (byteRun b).toNat (byteColor b)
  else if byteCopy b then [byteFirst b, byteSecond b, byteFirst b, byteSecond b]
  else [byteFirst b, byteSecond b]

/-- The pixels a stream of bytes stands for: each byte by itself, in order (R152). -/
def decodeBytes (bs : List Byte) : List Index := bs.flatMap expand

/-- A range byte with run 0 (0x80..0x87), which the block never emits (R69, R151). -/
def isRunZero (b : Byte) : Bool := byteTag b && byteRun b == 0

/-- Why a checker stops. -/
inductive CheckError where
  /-- A byte 0x80..0x87: this is not the block's output (R151, U7). -/
  | runZero (b : Byte)
  deriving DecidableEq, Repr

/-- `decodeBytes` by a checker that stops at a byte the block never emits (U7). -/
def checkBytes : List Byte → Except CheckError (List Index)
  | [] => .ok []
  | b :: bs =>
    if isRunZero b then .error (.runZero b)
    else match checkBytes bs with
      | .ok ps => .ok (expand b ++ ps)
      | .error e => .error e

/-- How a byte is read in a trace (R72). -/
inductive Reading where
  /-- `R(r,c)`: a range byte. -/
  | range (run : RunLength) (color : Index)
  /-- `C(a,b)`: a colour byte with copy 0. -/
  | pair (a b : Index)
  /-- `X(a,b)`: a colour byte with copy 1. -/
  | pattern (a b : Index)
  deriving DecidableEq, Repr

/-- The reading of a byte (R64, R67, R72). -/
def readByte (b : Byte) : Reading :=
  if byteTag b then .range (byteRun b) (byteColor b)
  else if byteCopy b then .pattern (byteFirst b) (byteSecond b)
  else .pair (byteFirst b) (byteSecond b)

/-- The byte of a reading (R65, R66). -/
def Reading.byte : Reading → Byte
  | .range r c => rangeByte r c
  | .pair a b => colourByte a false b
  | .pattern a b => colourByte a true b

/-- A reading as text (R72). -/
def Reading.text : Reading → String
  | .range r c => "R(" ++ toString r.toNat ++ "," ++ toString c.toNat ++ ")"
  | .pair a b => "C(" ++ toString a.toNat ++ "," ++ toString b.toNat ++ ")"
  | .pattern a b => "X(" ++ toString a.toNat ++ "," ++ toString b.toNat ++ ")"

end Sys2Proof.Machine
end

