-- ==== Sys2Proof/Safety.lean ====
section
/-! DEFINITION. The terms the statements speak in: what the block holds, what has passed at its ports, the whole-image functions
of the spec, and what a kept state is. -/

namespace Sys2Proof.Machine

/-! ### Several operations, several steps -/

/-- Operations done one after another. -/
def execAll : List Instr → State → Host.Outcome State Fault Refusal
  | [], s => .next s
  | i :: is, s =>
    match exec i s with
    | .next t => execAll is t
    | .fault r => .fault r
    | .refused r => .refused r

/-- `n` steps of the machine. -/
def runSteps : Nat → State → Host.Outcome State Fault Refusal
  | 0, s => .next s
  | n + 1, s =>
    match step s with
    | .next t => runSteps n t
    | .fault r => .fault r
    | .refused r => .refused r

/-- The range a compactor micro-operation pushes (R101, R102). -/
def pushedRange : Instr → Option Range
  | .cmpPh c => some { run := 0, color := c }
  | .cmpRange r c => some { run := r, color := c }
  | .pix _ | .flush | .reset | .segPix _ | .segFlush => none

/-- The compactor micro-operation that pushes a range: `CMP.RANGE`, or `CMP.PH` for run 0 (R63, R68). -/
def pushOp (r : Range) : Instr := if r.run = 0 then .cmpPh r.color else .cmpRange r.run r.color

/-! ### The whole-image functions of the spec -/

/-- The ranges the segmenter puts on the bus while the operations are done. -/
def rangesOnBus : List Instr → State → List Range
  | [], _ => []
  | i :: is, s =>
    match exec i s with
    | .next t => (t.bus.map Range.ofBus).toList ++ rangesOnBus is t
    | .fault _ => []
    | .refused _ => []

/-- The bytes in `out_q` when the operations are done. -/
def bytesAfter (is : List Instr) (s : State) : List Byte :=
  match execAll is s with
  | .next t => t.outQ
  | .fault _ => []
  | .refused _ => []

/-- `seg_ranges(p)`: `SEG.PIX` for each pixel, then `SEG.FLUSH`, from the reset state (R91). -/
def segRanges (p : List Index) : List Range := rangesOnBus (p.map .segPix ++ [.segFlush]) State.reset

/-- `cmp_bytes(rs)`: `CMP.RANGE` for each range (`CMP.PH` for run 0), then four `CMP.PH`, from the empty window (R115). -/
def cmpBytes (rs : List Range) : List Byte :=
  bytesAfter (rs.map pushOp ++ List.replicate 4 (.cmpPh 0)) State.reset

/-- `encode(p)`: the bytes of the image's `PIX` steps and its closing `FLUSH` step, from the reset state (R138). -/
def encodeImage (p : List Index) : List Byte := bytesAfter (p.map .pix ++ [.flush]) State.reset

/-! ### The pixels the block holds -/

/-- The pixels of a range: `run` copies of `color` (R84, R114). -/
def Range.pixels (r : Range) : List Index := List.replicate r.run.toNat r.color

/-- The pixels of a window, oldest first. -/
def Window.pixels (w : Window) : List Index := w.w0.pixels ++ w.w1.pixels ++ w.w2.pixels ++ w.w3.pixels

/-- The pixels of the pending run: none while `seg.prev` is `SENT` (R30's `pend`). -/
def Segmenter.pixels (g : Segmenter) : List Index :=
  if g.prev = Config.sent then [] else List.replicate g.count.toNat g.color

/-- Every pixel the block holds, oldest first: the window's, then the pending run's (R28, R30). -/
def State.held (s : State) : List Index := s.win.pixels ++ s.seg.pixels

/-! ### What has passed at the ports -/

/-- The port events since the last reset edge, oldest first. -/
def State.sinceReset (s : State) : List PortEvent := (s.trace.takeWhile (fun ev => ev != .rst)).reverse

/-- The word of an event. -/
def PortEvent.word? : PortEvent → Option InWord
  | .word w => some w
  | .byte _ => none
  | .rst => none
  | .idle => none

/-- The byte of an event. -/
def PortEvent.byte? : PortEvent → Option Byte
  | .word _ => none
  | .byte b => some b
  | .rst => none
  | .idle => none

/-- The words accepted since the last reset, in order (R41). -/
def State.wordsIn (s : State) : List InWord := s.sinceReset.filterMap PortEvent.word?

/-- The bytes transferred since the last reset, in order (R42). -/
def State.bytesOut (s : State) : List Byte := s.sinceReset.filterMap PortEvent.byte?

/-- The words accepted since the last reset whose steps are done: all of them but one in progress. -/
def State.wordsDone (s : State) : List InWord :=
  if s.inProgress.isSome then s.wordsIn.dropLast else s.wordsIn

/-- Every byte emitted since the last reset, in order: those transferred, then those still in `out_q` (R42). -/
def State.emittedBytes (s : State) : List Byte := s.bytesOut ++ s.outQ

/-- The pixels of a list of input words: `PIX n` is one pixel, a FLUSH word none (R60, R61). -/
def pixelsOf (ws : List InWord) : List Index := ws.filterMap (fun w => if inFlag w then none else some (inIndex w))

/-- The word in progress, if any, is the last word accepted, normalised (R61). -/
def State.tracked (s : State) : Prop :=
  ∀ w, s.inProgress = some w → ∃ x, s.wordsIn.getLast? = some x ∧ normalise x = w

/-- The port events up to and with the cycle before an edge: `idle` is seen in that cycle, if it is 1 (R190). -/
def State.traceAt (s : State) (e : Edge) : List PortEvent := if idleOut e s then .idle :: s.trace else s.trace

/-! ### The run of an image (R190) -/

/-- The events after the first FLUSH word: where the next image may start (R136). -/
def afterFlush : List PortEvent → List PortEvent
  | [] => []
  | .word w :: evs => if inFlag w then evs else afterFlush evs
  | .byte _ :: evs => afterFlush evs
  | .rst :: evs => afterFlush evs
  | .idle :: evs => afterFlush evs

/-- The bytes transferred up to the first `idle` cycle after a FLUSH word was accepted (`flushed`: one already was), if there is
such a cycle and no reset comes before it: the end of an image's run. -/
def bytesToRunEnd : Bool → List PortEvent → Option (List Byte)
  | _, [] => none
  | _, .rst :: _ => none
  | flushed, .word w :: evs => bytesToRunEnd (flushed || inFlag w) evs
  | flushed, .byte b :: evs => (bytesToRunEnd flushed evs).map (b :: ·)
  | true, .idle :: _ => some []
  | false, .idle :: evs => bytesToRunEnd false evs

/-- The output of image `k` (counted from 0) among these events, oldest first: the bytes transferred from the image's first
accepted word to the end of its run, if it has ended (R136, R190). -/
def imageOutput : Nat → List PortEvent → Option (List Byte)
  | 0, evs => bytesToRunEnd false (evs.dropWhile (fun ev => ev.word?.isNone))
  | k + 1, evs => imageOutput k (afterFlush evs)

/-- The output of image `k` since the last reset (R190). -/
def State.imageOutput (s : State) (k : Nat) : Option (List Byte) := Sys2Proof.Machine.imageOutput k s.sinceReset

/-- Only the block's own ports drive the machine: every scheduled drive is a clock edge (R43, D16). -/
def State.portsOnly (s : State) : Prop := ∀ d ∈ s.pending, ∃ e, d = .edge e

/-! ### Kept states: the invariants of the spec -/

/-- The registers at a boundary between top-level steps: `seg.prev` is an index or `SENT` (R21), `seg.count` is 1..15 (R22),
`w[0]` is empty (R29), the window is empty while nothing is pending (R134), the bus holds nothing (R132), and a word in
progress is an index or `SENT` (R61). -/
def State.kept (s : State) : Prop :=
  s.seg.prev.toNat ≤ 8 ∧ s.seg.count ≠ 0 ∧ s.win.w0.run = 0 ∧ (s.seg.prev = Config.sent → s.win = .empty) ∧
    s.bus = none ∧ ∀ w, s.inProgress = some w → w.toNat ≤ 8

/-- A byte the block may emit in operation: no range byte of run 0 (R69), no colour byte with two equal colours (R70). -/
def emittable (b : Byte) : Prop :=
  if byteTag b then byteRun b ≠ 0 else byteFirst b ≠ byteSecond b

/-- Neighbouring ranges share a colour only where the cap split a run (R89, R70): a range not yet in `w[1]` has then run 15, and
one in `w[1]`, which case 2 may have decremented once (R112), run 14 or 15. -/
def State.splitOnly (s : State) : Prop :=
  (s.win.w1.run ≠ 0 → s.win.w2.run ≠ 0 → s.win.w1.color = s.win.w2.color → 14 ≤ s.win.w1.run.toNat) ∧
  (s.win.w2.run ≠ 0 → s.win.w3.run ≠ 0 → s.win.w2.color = s.win.w3.color → s.win.w2.run = 15) ∧
  (s.win.w3.run ≠ 0 → s.seg.prev ≠ Config.sent → s.win.w3.color = s.seg.color → s.win.w3.run = 15)

/-- Every byte that has left the block since the last reset, or waits in `out_q`, is one it may emit (R69, R70). -/
def State.cleanOutput (s : State) : Prop := ∀ b ∈ s.emittedBytes, emittable b

/-- `out_q` is within its capacity, with room for a whole step while one is in progress (R44, R188). -/
def State.bounded (s : State) : Prop :=
  s.outQ.length ≤ Config.outDepth ∧ (s.inProgress.isSome → s.outQ.length + Config.maxStepBytes ≤ Config.outDepth)

/-- Pixel accounting (R30, R154): the bytes emitted since the last reset expand to the pixels of the words done, but for those
the block still holds, in order. -/
def State.accounted (s : State) : Prop :=
  s.win.w0.run = 0 ∧ s.tracked ∧ decodeBytes s.emittedBytes ++ s.held = pixelsOf s.wordsDone

/-- Determinism (R139): the registers, and the bytes emitted since the last reset, are what the words done give from the reset
state, whatever the cycles' draws were. -/
def State.replayed (s : State) : Prop :=
  s.tracked ∧ ∃ t, execAll (s.wordsDone.map decodeIn) State.reset = .next t ∧
    t.seg = s.seg ∧ t.win = s.win ∧ t.outQ = s.emittedBytes

/-- A state of the block in operation: reset once, driven by its ports only, and in every invariant above. -/
def State.sound (s : State) : Prop :=
  s.booted = true ∧ s.portsOnly ∧ s.kept ∧ s.splitOnly ∧ s.cleanOutput ∧ s.bounded ∧ s.accounted ∧ s.replayed

/-! ### Infinite runs -/

/-- The state after `n` edges of an infinite schedule, each of them one step of the machine. -/
def stateAt (es : Nat → Edge) (s : State) : Nat → State
  | 0 => s
  | n + 1 =>
    match step ((stateAt es s n).setPending [.edge (es n)]) with
    | .next t => t
    | .fault _ => stateAt es s n
    | .refused _ => stateAt es s n

/-- A schedule in which host and block keep their duties of R47 and R49 and no reset comes: `out_ready` meets `out_valid`'s draw
again and again, the block does not withhold `in_ready` forever, and no step takes forever. DEDUCED: R49 names the duties and this
is what they come to for the draws; log 11. -/
def FairSchedule (es : Nat → Edge) : Prop :=
  (∀ n, (es n).rst = false) ∧
  (∀ n, ∃ m, n ≤ m ∧ (es m).outReady = true ∧ (es m).validDraw = true) ∧
  (∀ n, ∃ m, n ≤ m ∧ (es m).readyDraw = true) ∧ ∀ n, ∃ m, n ≤ m ∧ (es m).doneDraw = true

/-! ### States no port can tell apart -/

/-- Two slots equal but for the colour of an empty one (R108, U3). -/
def Range.alike (a b : Range) : Prop := a = b ∨ (a.run = 0 ∧ b.run = 0)

/-- Two segmenters equal but for the count while nothing is pending (R87, U16). -/
def Segmenter.alike (a b : Segmenter) : Prop := a = b ∨ (a.prev = Config.sent ∧ b.prev = Config.sent)

/-- Two states equal but for an empty slot's colour and for `seg.count` while `SENT`. -/
def State.alike (s t : State) : Prop :=
  s.seg.alike t.seg ∧ s.win.w0.alike t.win.w0 ∧ s.win.w1.alike t.win.w1 ∧ s.win.w2.alike t.win.w2 ∧
    s.win.w3.alike t.win.w3 ∧ s.outQ = t.outQ ∧ s.bus = t.bus ∧ s.inProgress = t.inProgress ∧ s.booted = t.booted ∧
    s.pending = t.pending ∧ s.trace = t.trace

end Sys2Proof.Machine
end

