-- ==== Sys2Proof/Certificates/Slice0/Obligations.lean ====
section
/-! DEFINITION. The statements for the provers, in the order of the spec's files. -/

open Sys2Proof Sys2Proof.Machine

/-! ### State and reset -/

/-- R31: the reset values. -/
def Obligations.ResetStateHoldsSpecValues : Prop :=
  State.reset.seg.prev = 0b1000#4 ∧ State.reset.seg.count = 1#4 ∧
  State.reset.win.w0 = { run := 0, color := 0 } ∧ State.reset.win.w1 = { run := 0, color := 0 } ∧
  State.reset.win.w2 = { run := 0, color := 0 } ∧ State.reset.win.w3 = { run := 0, color := 0 } ∧
  State.reset.outQ = []

/-- An edge with `rst == 1` (42_top_level.md section 1), in any state and whatever else the host does at it, leaves the reset values, abandons the step
in progress and discards `out_q`; it accepts no word and transfers no byte (its only port event, but for `idle` seen in its cycle,
is the reset); then `idle` is 1. It does so before any other reset too (R182): from here on the block is specified. The
clauses on `pending`, `trace` and `booted` are about the model's own fields (DESIGN CHOICE, log 2, log 7, log 18). -/
def Obligations.ResetEdgeResetsTheBlock : Prop :=
  ∀ (s : State) (e : Edge) (rest : List Drive), s.pending = .edge e :: rest → e.rst = true →
    ∃ t, step s = .next t ∧ t.seg = { prev := 0b1000, count := 1 } ∧
      t.win = { w0 := ⟨0, 0⟩, w1 := ⟨0, 0⟩, w2 := ⟨0, 0⟩, w3 := ⟨0, 0⟩ } ∧ t.outQ = [] ∧ t.inProgress = none ∧
      t.trace = .rst :: s.traceAt e ∧ t.pending = rest ∧ t.booted = true ∧ ∀ e', idleOut e' t = true

/-- `RESET` as an operation, from every state: the reset values (10_state.md section 2), the bus cleared with them (DEDUCED, log
5), `booted` set (log 18), and the model's other own fields untouched (log 2, log 7). -/
def Obligations.ResetCompletes : Prop :=
  ∀ s : State, exec .reset s = .next
    { seg := { prev := 0b1000, count := 1 }, win := { w0 := ⟨0, 0⟩, w1 := ⟨0, 0⟩, w2 := ⟨0, 0⟩, w3 := ⟨0, 0⟩ },
      outQ := [], bus := none, inProgress := none, booted := true, pending := s.pending, trace := s.trace }

/-- Before the first reset after power-on (70_reset_and_hazards.md section 1): every output of a cycle, with `rst` or without, is
that cycle's free draw, and after an edge without `rst` every register holds that edge's free draw, the state being still
unspecified. That these values stand in the scheduled edge is the model's DESIGN CHOICE (log 18). -/
def Obligations.NothingIsSpecifiedBeforeReset : Prop :=
  ∀ (s : State) (e : Edge), s.booted = false →
    inReady e s = e.readyDraw ∧ outValid e s = e.validDraw ∧ outData e s = e.dataDraw ∧ idleOut e s = e.idleDraw ∧
    ∀ rest, s.pending = .edge e :: rest → e.rst = false →
      ∃ t, step s = .next t ∧ t.booted = false ∧ t.pending = rest ∧ t.seg = e.powerDraw.seg ∧ t.win = e.powerDraw.win ∧
        t.outQ = e.powerDraw.outQ ∧ t.bus = e.powerDraw.bus ∧ t.inProgress = e.powerDraw.inProgress

/-! ### Encodings -/

/-- R60 to R63, R68: the words of the vectors T-E1 to T-E11, and RESET's, decode to the operations the spec gives. -/
def Obligations.SpecWordsDecode : Prop :=
  decode .inPort [0x0] = .ok (.pix 0, []) ∧ decode .inPort [0x5] = .ok (.pix 5, []) ∧
  decode .inPort [0x7] = .ok (.pix 7, []) ∧ decode .inPort [0x8] = .ok (.flush, []) ∧
  decode .inPort [0xB] = .ok (.flush, []) ∧ decode .inPort [0xF] = .ok (.flush, []) ∧
  decode .segmenter [0x6] = .ok (.segPix 6, []) ∧ decode .segmenter [0x8] = .ok (.segFlush, []) ∧
  decode .compactor [0x00] = .ok (.cmpPh 0, []) ∧ decode .compactor [0x06] = .ok (.cmpPh 6, []) ∧
  decode .compactor [0x08] = .ok (.cmpRange 1 0, []) ∧ decode .compactor [0x7F] = .ok (.cmpRange 15 7, []) ∧
  decode .compactor [0x2B] = .ok (.cmpRange 5 3, []) ∧ decode .rstPin [0x1] = .ok (.reset, [])

/-- Decoding an encoded operation gives it back, with every operand at every value its encoding admits, and leaves the bytes
after it (R60 to R63, R68). -/
def Obligations.DecodeUndoesEncode : Prop :=
  ∀ (i : Instr) (rest : List Byte), i.wellFormed = true → decode i.level (encode i :: rest) = .ok (i, rest)

/-- R60, R68: the opcode map. Bit 3 of an input word alone selects the operation, at the block's port and in the segmenter, bits
6:3 of a bus word alone the compactor's, and `rst` is RESET where it is 1; the operands are the remaining bits. -/
def Obligations.OpcodeMapSelects : Prop :=
  (∀ w : InWord, (w.getLsbD 3 = false → decodeIn w = .pix (w.extractLsb' 0 3) ∧ decodeSeg w = .segPix (w.extractLsb' 0 3)) ∧
    (w.getLsbD 3 = true → decodeIn w = .flush ∧ decodeSeg w = .segFlush)) ∧
  (∀ w : BusWord, (w.extractLsb' 3 4 = 0 → decodeBus w = .cmpPh (w.extractLsb' 0 3)) ∧
    (w.extractLsb' 3 4 ≠ 0 → decodeBus w = .cmpRange (w.extractLsb' 3 4) (w.extractLsb' 0 3))) ∧
  decodeByte .rstPin 1 = .ok .reset ∧ decodeByte .rstPin 0 = .error .rstLow

/-- R67: the fields of every format. What the layouts of R62, R65 and R66 put into a word, R67's fields give back, and every byte
is the one its fields make. -/
def Obligations.FieldsReadBack : Prop :=
  (∀ n : Index, inFlag (0#1 ++ n) = false ∧ inFlag (1#1 ++ n) = true ∧ inIndex (0#1 ++ n) = n) ∧
  (∀ (r : RunLength) (c : Index), busWord r c = (r.setWidth 7 <<< 3) ||| c.setWidth 7 ∧
    busRun (busWord r c) = r ∧ busColor (busWord r c) = c ∧
    rangeByte r c = 0x80#8 ||| (r.setWidth 8 <<< 3) ||| c.setWidth 8 ∧
    byteTag (rangeByte r c) = true ∧ byteRun (rangeByte r c) = r ∧ byteColor (rangeByte r c) = c) ∧
  (∀ (a b : Index) (k : Bool),
    colourByte a k b = (a.setWidth 8 <<< 4) ||| (if k then 0x08#8 else 0x00#8) ||| b.setWidth 8 ∧
    byteTag (colourByte a k b) = false ∧ byteFirst (colourByte a k b) = a ∧ byteCopy (colourByte a k b) = k ∧
    byteSecond (colourByte a k b) = b) ∧
  ∀ b : Byte, b = if byteTag b then rangeByte (byteRun b) (byteColor b)
    else colourByte (byteFirst b) (byteCopy b) (byteSecond b)

/-- R150: what each kind of output byte expands to, a range byte of run 0 too; by `FieldsReadBack` these are all bytes. -/
def Obligations.BytesExpand : Prop :=
  (∀ (r : RunLength) (c : Index), expand (rangeByte r c) = List.replicate r.toNat c) ∧
  ∀ a b : Index, expand (colourByte a false b) = [a, b] ∧ expand (colourByte a true b) = [a, b, a, b]

/-! ### The segmenter -/

/-- `SEG.PIX n` (40_segmenter.md section 2), for every index and every state; nothing but the segmenter's registers and the bus
changes. That the bus holds nothing afterwards where no range comes out, whatever it held before, is the model's reading (DEDUCED,
log 5). -/
def Obligations.SegPixDoesSegStep : Prop :=
  ∀ (n : Index) (s : State), decodeSeg (0#1 ++ n) = .segPix n ∧ exec (.segPix n) s = .next
    (if n.setWidth 4 ≠ s.seg.prev ∨ s.seg.count = 15 then
      { s with seg := { prev := n.setWidth 4, count := 1 },
               bus := if s.seg.prev ≠ 0b1000 then some (s.seg.count ++ s.seg.prev.extractLsb' 0 3) else none }
     else { s with seg := { prev := n.setWidth 4, count := s.seg.count + 1 }, bus := none })

/-- `SEG.FLUSH` (40_segmenter.md section 2), for all eight words of it and every state; nothing but the segmenter's registers and
the bus changes. That the bus holds nothing afterwards where no range comes out is the model's reading (DEDUCED, log 5). -/
def Obligations.SegFlushDoesSegStep : Prop :=
  ∀ (low : BitVec 3) (s : State), decodeSeg (1#1 ++ low) = .segFlush ∧ exec .segFlush s = .next
    (if s.seg.prev ≠ 0b1000 then
      { s with seg := { prev := 0b1000, count := 1 }, bus := some (s.seg.count ++ s.seg.prev.extractLsb' 0 3) }
     else { s with seg := { prev := 0b1000, count := if s.seg.count = 15 then 1 else s.seg.count + 1 }, bus := none })

/-- With nothing pending, `SEG.FLUSH` follows the else branch of `seg_step` (40_segmenter.md section 3), which is its branch while
the count is not 15; nothing else changes but the bus, whose clearing is the model's reading (DEDUCED, log 5). -/
def Obligations.SegFlushWithNothingPendingCounts : Prop :=
  ∀ s : State, s.seg.prev = 0b1000 → s.seg.count ≠ 15 →
    exec .segFlush s = .next { s with seg := { prev := 0b1000, count := s.seg.count + 1 }, bus := none }

/-- R86, R83 (inferences the spec draws from R80): from a count of 1..15 a segmenter micro-step leaves a count of 1..15, never
by wrapping, and a range it puts on the bus has a run of 1..15. -/
def Obligations.SegCountStaysInRange : Prop :=
  ∀ (i : Instr) (s : State), (i = .segFlush ∨ ∃ n, i = .segPix n) → s.seg.count ≠ 0 →
    ∃ t, exec i s = .next t ∧ (t.seg.count = 1 ∨ t.seg.count.toNat = s.seg.count.toNat + 1) ∧
      ∀ w, t.bus = some w → busRun w ≠ 0

/-- R84 (an inference of the spec): an image's ranges expand to exactly its pixels, in order. -/
def Obligations.SegRangesExpandToPixels : Prop :=
  ∀ p : List Index, (segRanges p).flatMap Range.pixels = p

/-- R85 (an inference of the spec): a run of `m` identical pixels becomes `m / 15` ranges of 15 and one of the rest. -/
def Obligations.SegCapSplitsRuns : Prop :=
  ∀ (m : Nat) (c : Index), segRanges (List.replicate m c) =
    List.replicate (m / 15) { run := 15, color := c } ++
      (if m % 15 = 0 then [] else [{ run := BitVec.ofNat 4 (m % 15), color := c }])

/-- R89, R83 (inferences of the spec): every range has a run of at least 1, and two consecutive ones share a colour only if the
first has run 15. -/
def Obligations.SegNeighboursDifferInColour : Prop :=
  ∀ p : List Index, (∀ r ∈ segRanges p, r.run ≠ 0) ∧
    ∀ (k : Nat) (a b : Range), (segRanges p)[k]? = some a → (segRanges p)[k + 1]? = some b →
      a.color = b.color → a.run = 15

/-! ### The compactor -/

/-- R104: case 1, for `CMP.RANGE` and `CMP.PH` alike (a placeholder never meets it: its run is 0). In this and the next three,
`w[k]` after the shift is `w[k+1]` before it, `w[3]` the range pushed; only the window, `out_q` and the bus change. -/
def Obligations.CmpAlternatingPair : Prop :=
  ∀ (i : Instr) (e : Range) (s : State), pushedRange i = some e →
    s.win.w1.run = 1 → s.win.w2.run = 1 → s.win.w3.run = 1 → e.run = 1 →
    s.win.w1.color = s.win.w3.color → s.win.w2.color = e.color →
    ∃ bus, exec i s = .next { s with
      win := { w0 := ⟨0, 0⟩, w1 := ⟨0, 0⟩, w2 := ⟨0, 0⟩, w3 := ⟨0, 0⟩ },
      outQ := s.outQ ++ [(s.win.w1.color.setWidth 8 <<< 4) ||| 0x08#8 ||| s.win.w2.color.setWidth 8], bus := bus }

/-- R105: case 2, for `CMP.RANGE` and `CMP.PH`; the decrement does not wrap. -/
def Obligations.CmpSingletonAbsorption : Prop :=
  ∀ (i : Instr) (e : Range) (s : State), pushedRange i = some e →
    ¬ (s.win.w1.run = 1 ∧ s.win.w2.run = 1 ∧ s.win.w3.run = 1 ∧ e.run = 1 ∧
        s.win.w1.color = s.win.w3.color ∧ s.win.w2.color = e.color) →
    s.win.w1.run = 1 → 1 ≤ s.win.w2.run →
    (∃ bus, exec i s = .next { s with
      win := { w0 := ⟨0, 0⟩, w1 := ⟨s.win.w2.run - 1, s.win.w2.color⟩, w2 := s.win.w3, w3 := e },
      outQ := s.outQ ++ [(s.win.w1.color.setWidth 8 <<< 4) ||| s.win.w2.color.setWidth 8], bus := bus }) ∧
    (s.win.w2.run - 1).toNat + 1 = s.win.w2.run.toNat

/-- R106: case 3, for `CMP.RANGE` and `CMP.PH`. Case 2 not holding is enough, since case 1's condition implies case 2's (R109). -/
def Obligations.CmpPlainRange : Prop :=
  ∀ (i : Instr) (e : Range) (s : State), pushedRange i = some e →
    s.win.w1.run ≠ 0 → ¬ (s.win.w1.run = 1 ∧ 1 ≤ s.win.w2.run) →
    ∃ bus, exec i s = .next { s with
      win := { w0 := ⟨0, 0⟩, w1 := s.win.w2, w2 := s.win.w3, w3 := e },
      outQ := s.outQ ++ [0x80#8 ||| (s.win.w1.run.setWidth 8 <<< 3) ||| s.win.w1.color.setWidth 8], bus := bus }

/-- R107: case 4, for `CMP.RANGE` and `CMP.PH`. -/
def Obligations.CmpEmptySlot : Prop :=
  ∀ (i : Instr) (e : Range) (s : State), pushedRange i = some e → s.win.w1.run = 0 →
    ∃ bus, exec i s = .next { s with
      win := { w0 := s.win.w1, w1 := s.win.w2, w2 := s.win.w3, w3 := e }, bus := bus }

/-- R110, R113 (inferences of the spec): a micro-step emits at most one byte, the pixels it covers are removed from the window,
in order, and `w[0]` is empty afterwards. -/
def Obligations.MicroStepCoversWhatItRemoves : Prop :=
  ∀ (i : Instr) (e : Range) (s : State), pushedRange i = some e →
    ∃ t bs, exec i s = .next t ∧ t.outQ = s.outQ ++ bs ∧ bs.length ≤ 1 ∧ t.win.w0.run = 0 ∧
      decodeBytes bs ++ t.win.pixels = s.win.w1.pixels ++ s.win.w2.pixels ++ s.win.w3.pixels ++ e.pixels

/-- R111 (an inference of the spec): three placeholders empty every slot, the fourth emits nothing and leaves the reset window. -/
def Obligations.FourPlaceholdersDrain : Prop :=
  ∀ s : State, ∃ t u, execAll [.cmpPh 0, .cmpPh 0, .cmpPh 0] s = .next t ∧ exec (.cmpPh 0) t = .next u ∧
    t.win.w0.run = 0 ∧ t.win.w1.run = 0 ∧ t.win.w2.run = 0 ∧ t.win.w3.run = 0 ∧
    u.outQ = t.outQ ∧ u.win = { w0 := ⟨0, 0⟩, w1 := ⟨0, 0⟩, w2 := ⟨0, 0⟩, w3 := ⟨0, 0⟩ } ∧ u.seg = s.seg

/-- R114 (an inference of the spec): the compactor alone loses and reorders no pixel, for any ranges, of run 0 too. -/
def Obligations.CompactorRoundTrip : Prop :=
  ∀ rs : List Range, decodeBytes (cmpBytes rs) = rs.flatMap Range.pixels

/-! ### The top level -/

/-- R131: `PIX n` in its three ways: a run goes on, a first run starts, or the pending run goes to the compactor. In the first two
nothing but the segmenter's registers and the bus changes. -/
def Obligations.PixDoesBothStages : Prop :=
  ∀ (n : Index) (s : State), decodeIn (0#1 ++ n) = .pix n ∧
    (n.setWidth 4 = s.seg.prev → s.seg.count ≠ 15 →
      ∃ bus, exec (.pix n) s = .next { s with seg := { prev := n.setWidth 4, count := s.seg.count + 1 }, bus := bus }) ∧
    (s.seg.prev = 0b1000 →
      ∃ bus, exec (.pix n) s = .next { s with seg := { prev := n.setWidth 4, count := 1 }, bus := bus }) ∧
    (s.seg.prev ≠ 0b1000 → n.setWidth 4 ≠ s.seg.prev ∨ s.seg.count = 15 →
      ∃ t, exec (.cmpRange s.seg.count (s.seg.prev.extractLsb' 0 3))
          { s with seg := { prev := n.setWidth 4, count := 1 } } = .next t ∧ exec (.pix n) s = .next t)

/-- R133: `FLUSH` is the segmenter's flush, the push of its range if there is one, and four placeholders. -/
def Obligations.FlushDoesItsMicroSteps : Prop :=
  ∀ (low : BitVec 3) (s : State), decodeIn (1#1 ++ low) = .flush ∧
    ∃ t, exec .flush s = .next t ∧ execAll
      ([.segFlush] ++
        (if s.seg.prev ≠ 0b1000 then [.cmpRange s.seg.count (s.seg.prev.extractLsb' 0 3)] else []) ++
        [.cmpPh 0, .cmpPh 0, .cmpPh 0, .cmpPh 0]) s = .next t

/-- R136, R87 (inferences of the spec): after `FLUSH`, from any state, the block is as after reset but for `seg.count` and
`out_q`; bytes are only added to `out_q`, and nothing else changes. -/
def Obligations.FlushLeavesTheResetState : Prop :=
  ∀ s : State, ∃ t bs, exec .flush s = .next t ∧ t.seg.prev = 0b1000 ∧
    t.win = { w0 := ⟨0, 0⟩, w1 := ⟨0, 0⟩, w2 := ⟨0, 0⟩, w3 := ⟨0, 0⟩ } ∧ t.bus = none ∧ t.outQ = s.outQ ++ bs ∧
    t.inProgress = s.inProgress ∧ t.booted = s.booted ∧ t.pending = s.pending ∧ t.trace = s.trace

/-- R135 (an inference of the spec): `PIX` emits at most 1 byte and `FLUSH` at most 4, from any state, and 4 is reached. -/
def Obligations.BytesPerStep : Prop :=
  (∀ (n : Index) (s : State), ∃ t bs, exec (.pix n) s = .next t ∧ t.outQ = s.outQ ++ bs ∧ bs.length ≤ 1) ∧
  (∀ s : State, ∃ t bs, exec .flush s = .next t ∧ t.outQ = s.outQ ++ bs ∧ bs.length ≤ 4) ∧
  ∃ (s t : State) (bs : List Byte), s.kept ∧ exec .flush s = .next t ∧ t.outQ = s.outQ ++ bs ∧ bs.length = 4

/-- R134, R185 (inferences of the spec): a `FLUSH` with nothing pending and every slot empty emits nothing, and leaves a state no
port can tell from the one before, once the bus is clear. -/
def Obligations.SecondFlushIsHarmless : Prop :=
  ∀ s : State, s.seg.prev = 0b1000 → s.win.w0.run = 0 → s.win.w1.run = 0 → s.win.w2.run = 0 → s.win.w3.run = 0 →
    s.bus = none → ∃ t, exec .flush s = .next t ∧ t.outQ = s.outQ ∧ s.alike t

/-- R30, R154 (inferences of the spec), as what one step does: the bytes a `PIX` emits, then the pixels held, are the pixels held
before and the new one; the bytes a `FLUSH` emits are all the pixels held. -/
def Obligations.TopStepsLoseNoPixel : Prop :=
  ∀ s : State, s.win.w0.run = 0 →
    (∀ n : Index, ∃ t bs, exec (.pix n) s = .next t ∧ t.outQ = s.outQ ++ bs ∧ t.win.w0.run = 0 ∧
      decodeBytes bs ++ t.held = s.held ++ [n]) ∧
    ∃ t bs, exec .flush s = .next t ∧ t.outQ = s.outQ ++ bs ∧ t.held = [] ∧ decodeBytes bs = s.held

/-- R138 (an inference of the spec): interleaving the stages changes nothing. -/
def Obligations.EncodeIsTwoStages : Prop :=
  ∀ p : List Index, encodeImage p = cmpBytes (segRanges p)

/-- R153 (an inference of the spec, and the source's own law): the round trip of a whole image. -/
def Obligations.ImageRoundTrip : Prop :=
  ∀ p : List Index, decodeBytes (encodeImage p) = p

/-- R140 (an inference of the spec): the length bounds. -/
def Obligations.EncodedLengthBounds : Prop :=
  ∀ p : List Index, p.length ≤ 15 * (encodeImage p).length ∧ (encodeImage p).length ≤ p.length

/-- 95_test_vectors.md W1 to W4, the source's properties of one pixel, of A B A B, of five A and a B, and of twenty A, from any
state in which an image may start (nothing pending, every slot empty), for every colour; `A ≠ B` by 90_conflicts.md C3. -/
def Obligations.SourceExamplesEncode : Prop :=
  ∀ (s : State) (a b : Index), s.seg.prev = 0b1000 → s.win.w1.run = 0 → s.win.w2.run = 0 → s.win.w3.run = 0 → a ≠ b →
    bytesAfter [.pix a, .flush] s = s.outQ ++ [0x80#8 ||| (1#8 <<< 3) ||| a.setWidth 8] ∧
    bytesAfter [.pix a, .pix b, .pix a, .pix b, .flush] s =
      s.outQ ++ [(a.setWidth 8 <<< 4) ||| 0x08#8 ||| b.setWidth 8] ∧
    bytesAfter (List.replicate 5 (.pix a) ++ [.pix b, .flush]) s =
      s.outQ ++ [0x80#8 ||| (5#8 <<< 3) ||| a.setWidth 8, 0x80#8 ||| (1#8 <<< 3) ||| b.setWidth 8] ∧
    bytesAfter (List.replicate 20 (.pix a) ++ [.flush]) s =
      s.outQ ++ [0x80#8 ||| (15#8 <<< 3) ||| a.setWidth 8, 0x80#8 ||| (5#8 <<< 3) ||| a.setWidth 8]

/-! ### Frames, and no stop -/

/-- What each operation leaves unchanged: the segmenter's touch only its registers and the bus; the compactor's only the window,
`out_q` (bytes are only added) and the bus; `PIX` and `FLUSH` only these together; `RESET` leaves the host's side. That the bus is
clear after a compactor step is the model's reading of 42_top_level.md R132 (DEDUCED, log 5). -/
def Obligations.InstructionFrames : Prop :=
  (∀ (i : Instr) (s : State), (i = .segFlush ∨ ∃ n, i = .segPix n) →
    ∃ g b, exec i s = .next { s with seg := g, bus := b }) ∧
  (∀ (i : Instr) (e : Range) (s : State), pushedRange i = some e →
    ∃ w bs, exec i s = .next { s with win := w, outQ := s.outQ ++ bs, bus := none }) ∧
  (∀ (i : Instr) (s : State), (i = .flush ∨ ∃ n, i = .pix n) →
    ∃ g w bs, exec i s = .next { s with seg := g, win := w, outQ := s.outQ ++ bs, bus := none }) ∧
  ∀ s : State, ∃ t, exec .reset s = .next t ∧ t.pending = s.pending ∧ t.trace = s.trace

/-- R160, R171: no operation and no step faults, refuses or is stuck, from any state. -/
def Obligations.NothingEverStops : Prop :=
  (∀ (i : Instr) (s : State), ∃ t, exec i s = .next t) ∧ ∀ s : State, ∃ t, step s = .next t

/-! ### Ports and steps -/

/-- `in_ready` (20_memory.md section 2): the three conditions under each of which it is 0, and that nothing else holds it but the
cycle's free draw, which the model keeps in the scheduled edge (DESIGN CHOICE, log 3). This and the statements after it speak of a
block that has been reset once; `NothingIsSpecifiedBeforeReset` speaks of the other (R182; log 18). -/
def Obligations.InReadyRule : Prop :=
  ∀ (e : Edge) (s : State), s.booted = true →
    (e.rst = true → inReady e s = false) ∧ (s.inProgress.isSome → inReady e s = false) ∧
    (Config.outDepth < s.outQ.length + 4 → inReady e s = false) ∧
    (e.rst = false → s.inProgress = none → s.outQ.length + 4 ≤ Config.outDepth → inReady e s = e.readyDraw)

/-- The `out` port (20_memory.md section 2): `out_valid` implies a head byte, shown on `out_data`; with it, `out_ready` and no
reset, that byte leaves `out_q` for the host and nothing else changes; otherwise nothing is transferred. That `out_data` is the
cycle's `dataDraw` while `out_valid` is 0, and `out_valid` its `validDraw` while bytes are queued, is how the model holds these
free values (DESIGN CHOICE, log 3). -/
def Obligations.OutPortRule : Prop :=
  ∀ (e : Edge) (s : State), s.booted = true →
    (outValid e s = true → ∃ b q, s.outQ = b :: q ∧ outData e s = b ∧
      (e.outReady = true → e.rst = false →
        transferOut e s = { s with outQ := q, trace := .byte b :: s.trace })) ∧
    (outValid e s = false ∨ e.outReady = false ∨ e.rst = true → transferOut e s = s) ∧
    (outValid e s = false → outData e s = e.dataDraw) ∧ (s.outQ ≠ [] → outValid e s = e.validDraw)

/-- R46: `idle`, and its value after reset. -/
def Obligations.IdleRule : Prop :=
  (∀ (e : Edge) (s : State), s.booted = true → (idleOut e s = true ↔ s.inProgress = none ∧ s.outQ = [])) ∧
    ∀ e : Edge, idleOut e State.reset = true

/-- A step runs the decoded operation: at an edge at which the host offers a word and the block takes it and completes its step,
the step is `exec` of the word's operation, on the state from which the `out` port has taken its byte, if it takes one, and in
whose record (DESIGN CHOICE, log 7) the word stands (R41, R43, R61, R163), behind `idle` if it was 1 in the cycle. -/
def Obligations.StepRunsTheAcceptedWord : Prop :=
  ∀ (s : State) (e : Edge) (rest : List Drive), s.booted = true → s.pending = .edge e :: rest → e.rst = false →
    e.inValid = true → inReady e s = true → e.doneDraw = true →
    ∃ u, transferOut e { s with pending := rest, trace := s.traceAt e } = u ∧
      step s = exec (decodeIn e.inData) { u with inProgress := none, trace := .word e.inData :: u.trace }

/-- A word accepted at an edge at which its step does not complete is in progress after it, and a step in progress completes at
the first edge whose draw says so, as `exec` of its operation; until then no word is accepted (R44, R130; LATENCY is OPEN; the draw and
the record are the model's own, log 3 and log 7). -/
def Obligations.StepInProgressCompletesLater : Prop :=
  (∀ (s : State) (e : Edge) (rest : List Drive), s.booted = true → s.pending = .edge e :: rest → e.rst = false →
    e.inValid = true → inReady e s = true → e.doneDraw = false →
    ∃ u w, transferOut e { s with pending := rest, trace := s.traceAt e } = u ∧ decodeIn w = decodeIn e.inData ∧
      w.toNat ≤ 8 ∧ step s = .next { u with inProgress := some w, trace := .word e.inData :: u.trace }) ∧
  ∀ (s : State) (e : Edge) (rest : List Drive) (w : InWord), s.booted = true → s.pending = .edge e :: rest →
    e.rst = false → s.inProgress = some w →
    ∃ u, transferOut e { s with pending := rest, trace := s.traceAt e } = u ∧
      step s = if e.doneDraw then exec (decodeIn w) { u with inProgress := none } else .next u

/-- Presenting an operation at its level runs exactly it at the next step, from any state in which its port can take it: on the
`in` port the block has been reset, no step is in progress and `out_q` is empty or has room (R44, R182); the `rst` pin and a
sub-unit alone take it always (R137; D16, log 4). The clause on `trace` is about the model's own record (log 7). -/
def Obligations.PresentedOperationRuns : Prop :=
  ∀ (i : Instr) (s : State) (rest : List Drive), i.wellFormed = true → s.pending = driveOf i :: rest →
    (i.level = .inPort → s.booted = true ∧ s.inProgress = none ∧ s.hasRoom = true) →
    ∃ t u, exec i { s with pending := rest } = .next t ∧ step s = .next u ∧
      u = { t with trace := u.trace } ∧
      u.trace = (match i.level with
        | .inPort => .word ((encode i).extractLsb' 0 4) :: s.traceAt (offerEdge ((encode i).extractLsb' 0 4))
        | .rstPin => .rst :: s.traceAt resetEdge
        | .segmenter => s.trace
        | .compactor => s.trace)

/-- R163, third bullet: at an edge at which a byte is transferred and a step runs (of the word accepted there, or of the one in
progress), both happen: the byte taken is the head as it stood before the edge, and the step's bytes go behind every byte already
in `out_q`. A word can be accepted with `out_q` not empty only where `OUT_DEPTH` is 5 or more (R44; log 9).
The last clause is about the model's own record (log 7). -/
def Obligations.BothTransfersAtOneEdge : Prop :=
  ∀ (s : State) (e : Edge) (rest : List Drive) (b : Byte) (q : List Byte) (i : Instr), s.booted = true →
    s.pending = .edge e :: rest → e.rst = false → e.doneDraw = true → s.outQ = b :: q → outValid e s = true →
    e.outReady = true →
    (e.inValid = true ∧ inReady e s = true ∧ i = decodeIn e.inData ∨ ∃ w, s.inProgress = some w ∧ i = decodeIn w) →
    ∃ t u bs, step s = .next t ∧ exec i s = .next u ∧ u.outQ = s.outQ ++ bs ∧ t.outQ = q ++ bs ∧
      t.seg = u.seg ∧ t.win = u.win ∧ t.inProgress = none ∧ (.byte b :: s.trace) <:+ t.trace

/-- Without an accepted word and with no step in progress (60_exceptions.md section 2), an edge without reset changes neither
stage and emits nothing: `out_q` only loses its head, if that is transferred. The clauses on `pending` and `trace`, where `idle` of
the cycle stands before the byte, are about the model's own fields (DESIGN CHOICE, log 2, log 7). -/
def Obligations.NothingWithoutAWord : Prop :=
  ∀ (s : State) (e : Edge) (rest : List Drive), s.booted = true → s.pending = .edge e :: rest → e.rst = false →
    e.inValid = false ∨ inReady e s = false → s.inProgress = none →
    ∃ t, step s = .next t ∧ t.seg = s.seg ∧ t.win = s.win ∧ t.inProgress = none ∧ t.bus = s.bus ∧ t.pending = rest ∧
      (t.outQ = s.outQ ∧ t.trace = s.traceAt e ∨ ∃ b, s.outQ = b :: t.outQ ∧ t.trace = .byte b :: s.traceAt e)

/-- A bounded form of R49's first bullet (log 11): a host that keeps `out_ready` at 1, over as many edges as `out_q` has bytes, at
each of which the block's draw presents the head, receives all of them, in order, and then sees `idle`. -/
def Obligations.QueueDrains : Prop :=
  ∀ (s : State) (es : List Edge) (rest : List Drive), s.booted = true → s.pending = es.map .edge ++ rest →
    es.length = s.outQ.length →
    (∀ e ∈ es, e.rst = false ∧ e.inValid = false ∧ e.outReady = true ∧ e.validDraw = true) → s.inProgress = none →
    ∃ t, runSteps es.length s = .next t ∧ t.idle = true ∧ t.bytesOut = s.bytesOut ++ s.outQ ∧
      t.seg = s.seg ∧ t.win = s.win ∧ t.pending = rest

/-- R49 over infinite schedules (log 11): from any state of a block that has been reset, if the duties are kept and no reset
comes, every byte emitted so far is eventually transferred, in order, and a host that always holds `in_valid` at 1 has a word
accepted again and again. -/
def Obligations.StreamsAreLive : Prop :=
  ∀ (es : Nat → Edge) (s : State), s.booted = true → FairSchedule es →
    (∀ n, ∃ m, n ≤ m ∧ (stateAt es s n).emittedBytes <+: (stateAt es s m).bytesOut) ∧
    ((∀ n, (es n).inValid = true) → ∀ n, ∃ m, n ≤ m ∧ accepts (es m) (stateAt es s m) = true)

/-! ### Boot, programs, and the run of an image -/

/-- A program of top-level operations in the syntax of R72, run from power-on as R183 requires (a reset edge first, and the host
taking every byte): from any state, the registers before the reset among them unspecified, and whatever `OUT_DEPTH` is, every word
behind the program's last RESET is taken, in order, no step is left in progress, both stages are as the program's operations leave
them from the reset state, and the bytes transferred since the last reset are those they emit. That the host's edges have every
draw they use at 1 is the program drives' own choice (DESIGN CHOICE, log 19); the words and bytes since the last reset are read off
the model's own record (log 7). -/
def Obligations.ProgramsRunFromPowerOn : Prop :=
  ∀ (p : List Line) (s : State) (rest : List Drive), (∀ i ∈ assemble p, i.level = .inPort ∨ i.level = .rstPin) →
    s.pending = bootDrives p ++ rest →
    ∃ t u, runSteps (bootDrives p).length s = .next t ∧ execAll (assemble p) State.reset = .next u ∧
      t.booted = true ∧ t.wordsIn = wordsBehindReset (assemble p) ∧ t.inProgress = none ∧ t.seg = u.seg ∧ t.win = u.win ∧
      t.bytesOut = u.outQ ∧ t.idle = true ∧ t.pending = rest

/-- R183 and R190, with every draw free: a host that asserts `rst` for one edge or more, sends each image's words and its FLUSH,
takes bytes until `idle`, and goes on to the next, over any edges that bring it to the end, from any state: the output of each
image's run is the encoding of that image, no byte of another image is among it, and `idle` is 1. -/
def Obligations.HostGetsItsImages : Prop :=
  ∀ (more : Nat) (images : List (List Index)) (ds : List Edge) (s t : State) (h : HostSide),
    hostRun ds (.atPowerOn more images) s = (h, t) → h.phase = .done →
    t.booted = true ∧ t.idle = true ∧ t.bytesOut = images.flatMap encodeImage ∧
    ∀ (k : Nat) (p : List Index), images[k]? = some p → t.imageOutput k = some (encodeImage p)

/-- Such a host comes to the end, if it always offers its word while it sends and the duties of R47 and R49 are kept (log 11). -/
def Obligations.HostFinishes : Prop :=
  ∀ (more : Nat) (images : List (List Index)) (es : Nat → Edge) (s : State), FairSchedule es →
    (∀ n, (es n).inValid = true) →
    ∃ m, (hostRun ((List.range m).map es) (.atPowerOn more images) s).1.phase = .done

/-! ### What every step keeps, once the block has been reset -/

/-- The reset state is in every invariant below, and a reset edge brings every state of a machine driven by its ports only into
them, from power-on too (R182, R183). -/
def Obligations.ResetMeetsTheInvariants : Prop :=
  State.reset.sound ∧ ∀ (s : State) (e : Edge) (rest : List Drive), s.portsOnly → s.pending = .edge e :: rest → e.rst = true →
    ∃ t, step s = .next t ∧ t.sound

/-- R21, R22, R29, R132, R134: the registers stay in their ranges, `w[0]` is empty, the window is empty while nothing is pending,
the bus is clear between steps. -/
def Obligations.StepKeepsRegisterRanges : Prop :=
  ∀ s t : State, s.booted = true → s.portsOnly → s.kept → step s = .next t → t.booted = true ∧ t.portsOnly ∧ t.kept

/-- R69, R70 (with R89, R112): the bytes the block emits in operation are never 0x80..0x87 and never a colour byte with two equal
colours. -/
def Obligations.StepKeepsOutputClean : Prop :=
  ∀ s t : State, s.booted = true → s.portsOnly → s.kept → s.splitOnly → s.cleanOutput → step s = .next t →
    t.splitOnly ∧ t.cleanOutput

/-- R188: `out_q` never overflows. -/
def Obligations.StepKeepsQueueBounded : Prop :=
  ∀ s t : State, s.booted = true → s.portsOnly → s.bounded → step s = .next t → t.bounded

/-- R30, R154, R153: pixel accounting over any run, with FLUSH and resets anywhere and every draw free. -/
def Obligations.StepKeepsPixelAccount : Prop :=
  ∀ s t : State, s.booted = true → s.portsOnly → s.accounted → step s = .next t → t.accounted

/-- R139, R42: the registers and the bytes are those the accepted words give, whatever the draws. -/
def Obligations.StepKeepsReplay : Prop :=
  ∀ s t : State, s.booted = true → s.portsOnly → s.replayed → step s = .next t → t.replayed

/-- R46, R186: `idle` after a FLUSH: every byte has been transferred, and the bytes the host has expand to the pixels it sent. -/
def Obligations.IdleAfterFlushIsComplete : Prop :=
  ∀ s : State, s.kept → s.accounted → s.idle = true → s.seg.prev = 0b1000 → decodeBytes s.bytesOut = pixelsOf s.wordsIn

/-- R87, R108: what no port can see never becomes visible: two states equal but for an empty slot's colour and the count while
nothing is pending stay so at every step, with the same bytes. -/
def Obligations.UnobservableStaysSo : Prop :=
  ∀ s t : State, s.alike t → ∃ s' t', step s = .next s' ∧ step t = .next t' ∧ s'.alike t'
end

