-- ==== Sys2Proof/Laws/HostSide.lean ====
section
/-! SUPPORT. What the host of Machine/HostSide.lean does. -/

namespace Sys2Proof.Machine

/-- Byte `k` of the block stands at offset `16 + k` of the file (R48). -/
theorem imageFile_get (palette : Vector Byte 16) (bytes : List Byte) (k : Nat) :
    (imageFile palette bytes)[16 + k]? = bytes[k]? := by
  simp [imageFile, List.getElem?_append_right]

/-- The host asserts `rst` while booting and at no other time (R183). -/
theorem edge_rst (h : HostSide) (d : Edge) : (h.edge d).rst = true ↔ ∃ n, h.phase = .boot n := by
  cases hp : h.phase <;> simp [HostSide.edge, hp]

@[simp] theorem hostRun_nil (h : HostSide) (s : State) : hostRun [] h s = (h, s) := rfl

/-- One edge of host and block, where the step answers a next state. -/
theorem hostRun_cons {d : Edge} {h : HostSide} {s t : State} (ds : List Edge)
    (ht : step (s.setPending [.edge (h.edge d)]) = .next t) :
    hostRun (d :: ds) h s = hostRun ds (h.next (h.edge d) s) t := by
  simp [hostRun, ht]

end Sys2Proof.Machine
end

