-- ==== Sys2Proof/Laws/Operands.lean ====
section
/-! SUPPORT. What the operand forms of Machine/Operands.lean and the tests of Machine/Flags.lean come to. -/

namespace Sys2Proof.Machine

/-- No index is the sentinel (R90). -/
@[simp] theorem segWord_ne_sent (n : Index) : segWord n ≠ Config.sent := by
  revert n; decide

/-- Different indices are different segmenter words. -/
@[simp] theorem segWord_inj {m n : Index} : segWord m = segWord n ↔ m = n := by
  revert m n; decide

/-- The colour of a run that started with `n` is `n`. -/
@[simp] theorem color_segWord (n : Index) (c : RunLength) : Segmenter.color { prev := segWord n, count := c } = n := by
  have h : ∀ n : Index, (segWord n).extractLsb' 0 3 = n := by decide
  exact h n

/-- A register value other than `SENT` within R21's range is an index's word: the one of its colour. -/
theorem segWord_color {g : Segmenter} (h8 : g.prev.toNat ≤ 8) (h : g.prev ≠ Config.sent) : segWord g.color = g.prev := by
  have key : ∀ p : InWord, p.toNat ≤ 8 → p ≠ Config.sent → segWord (p.extractLsb' 0 3) = p := by decide
  exact key g.prev h8 h

@[simp] theorem nothingPending_iff (g : Segmenter) : g.nothingPending = true ↔ g.prev = Config.sent := by
  simp [Segmenter.nothingPending]

@[simp] theorem nothingPending_eq_false_iff (g : Segmenter) : g.nothingPending = false ↔ g.prev ≠ Config.sent := by
  simp [Segmenter.nothingPending]

@[simp] theorem isEmpty_iff (r : Range) : r.isEmpty = true ↔ r.run = 0 := by
  simp [Range.isEmpty]

@[simp] theorem isEmpty_eq_false_iff (r : Range) : r.isEmpty = false ↔ r.run ≠ 0 := by
  simp [Range.isEmpty]

/-- The compactor reads from the bus the range the segmenter put there (R62, R132). -/
@[simp] theorem ofBus_toBus (r : Range) : Range.ofBus r.toBus = r := by
  obtain ⟨r, c⟩ := r
  revert r c; decide

/-- A normalised word is the word of an index, or `SENT` (R61). -/
theorem normalise_le (w : InWord) : (normalise w).toNat ≤ 8 := by
  revert w; decide

/-- Normalising a word does not change its operation (R61). -/
@[simp] theorem decodeIn_normalise (w : InWord) : decodeIn (normalise w) = decodeIn w := by
  revert w; decide

end Sys2Proof.Machine
end

