-- ==== Sys2Proof/Laws/State.lean ====
section
/-! SUPPORT. What each update of the state does to each field. -/

namespace Sys2Proof.Machine

variable (s : State)

@[simp] theorem State.setSeg_seg (g : Segmenter) : (s.setSeg g).seg = g := rfl
@[simp] theorem State.setSeg_win (g : Segmenter) : (s.setSeg g).win = s.win := rfl
@[simp] theorem State.setSeg_outQ (g : Segmenter) : (s.setSeg g).outQ = s.outQ := rfl
@[simp] theorem State.setSeg_bus (g : Segmenter) : (s.setSeg g).bus = s.bus := rfl
@[simp] theorem State.setSeg_inProgress (g : Segmenter) : (s.setSeg g).inProgress = s.inProgress := rfl
@[simp] theorem State.setSeg_booted (g : Segmenter) : (s.setSeg g).booted = s.booted := rfl
@[simp] theorem State.setSeg_pending (g : Segmenter) : (s.setSeg g).pending = s.pending := rfl
@[simp] theorem State.setSeg_trace (g : Segmenter) : (s.setSeg g).trace = s.trace := rfl

@[simp] theorem State.setWin_seg (w : Window) : (s.setWin w).seg = s.seg := rfl
@[simp] theorem State.setWin_win (w : Window) : (s.setWin w).win = w := rfl
@[simp] theorem State.setWin_outQ (w : Window) : (s.setWin w).outQ = s.outQ := rfl
@[simp] theorem State.setWin_bus (w : Window) : (s.setWin w).bus = s.bus := rfl
@[simp] theorem State.setWin_inProgress (w : Window) : (s.setWin w).inProgress = s.inProgress := rfl
@[simp] theorem State.setWin_booted (w : Window) : (s.setWin w).booted = s.booted := rfl
@[simp] theorem State.setWin_pending (w : Window) : (s.setWin w).pending = s.pending := rfl
@[simp] theorem State.setWin_trace (w : Window) : (s.setWin w).trace = s.trace := rfl

@[simp] theorem State.emitAll_seg (bs : List Byte) : (s.emitAll bs).seg = s.seg := rfl
@[simp] theorem State.emitAll_win (bs : List Byte) : (s.emitAll bs).win = s.win := rfl
@[simp] theorem State.emitAll_outQ (bs : List Byte) : (s.emitAll bs).outQ = s.outQ ++ bs := rfl
@[simp] theorem State.emitAll_bus (bs : List Byte) : (s.emitAll bs).bus = s.bus := rfl
@[simp] theorem State.emitAll_inProgress (bs : List Byte) : (s.emitAll bs).inProgress = s.inProgress := rfl
@[simp] theorem State.emitAll_booted (bs : List Byte) : (s.emitAll bs).booted = s.booted := rfl
@[simp] theorem State.emitAll_pending (bs : List Byte) : (s.emitAll bs).pending = s.pending := rfl
@[simp] theorem State.emitAll_trace (bs : List Byte) : (s.emitAll bs).trace = s.trace := rfl

@[simp] theorem State.setOutQ_seg (q : List Byte) : (s.setOutQ q).seg = s.seg := rfl
@[simp] theorem State.setOutQ_win (q : List Byte) : (s.setOutQ q).win = s.win := rfl
@[simp] theorem State.setOutQ_outQ (q : List Byte) : (s.setOutQ q).outQ = q := rfl
@[simp] theorem State.setOutQ_bus (q : List Byte) : (s.setOutQ q).bus = s.bus := rfl
@[simp] theorem State.setOutQ_inProgress (q : List Byte) : (s.setOutQ q).inProgress = s.inProgress := rfl
@[simp] theorem State.setOutQ_booted (q : List Byte) : (s.setOutQ q).booted = s.booted := rfl
@[simp] theorem State.setOutQ_pending (q : List Byte) : (s.setOutQ q).pending = s.pending := rfl
@[simp] theorem State.setOutQ_trace (q : List Byte) : (s.setOutQ q).trace = s.trace := rfl

@[simp] theorem State.setBus_seg (b : Option BusWord) : (s.setBus b).seg = s.seg := rfl
@[simp] theorem State.setBus_win (b : Option BusWord) : (s.setBus b).win = s.win := rfl
@[simp] theorem State.setBus_outQ (b : Option BusWord) : (s.setBus b).outQ = s.outQ := rfl
@[simp] theorem State.setBus_bus (b : Option BusWord) : (s.setBus b).bus = b := rfl
@[simp] theorem State.setBus_inProgress (b : Option BusWord) : (s.setBus b).inProgress = s.inProgress := rfl
@[simp] theorem State.setBus_booted (b : Option BusWord) : (s.setBus b).booted = s.booted := rfl
@[simp] theorem State.setBus_pending (b : Option BusWord) : (s.setBus b).pending = s.pending := rfl
@[simp] theorem State.setBus_trace (b : Option BusWord) : (s.setBus b).trace = s.trace := rfl

@[simp] theorem State.setInProgress_seg (w : Option InWord) : (s.setInProgress w).seg = s.seg := rfl
@[simp] theorem State.setInProgress_win (w : Option InWord) : (s.setInProgress w).win = s.win := rfl
@[simp] theorem State.setInProgress_outQ (w : Option InWord) : (s.setInProgress w).outQ = s.outQ := rfl
@[simp] theorem State.setInProgress_bus (w : Option InWord) : (s.setInProgress w).bus = s.bus := rfl
@[simp] theorem State.setInProgress_inProgress (w : Option InWord) : (s.setInProgress w).inProgress = w := rfl
@[simp] theorem State.setInProgress_booted (w : Option InWord) : (s.setInProgress w).booted = s.booted := rfl
@[simp] theorem State.setInProgress_pending (w : Option InWord) : (s.setInProgress w).pending = s.pending := rfl
@[simp] theorem State.setInProgress_trace (w : Option InWord) : (s.setInProgress w).trace = s.trace := rfl

@[simp] theorem State.setRegisters_seg (u : Registers) : (s.setRegisters u).seg = u.seg := rfl
@[simp] theorem State.setRegisters_win (u : Registers) : (s.setRegisters u).win = u.win := rfl
@[simp] theorem State.setRegisters_outQ (u : Registers) : (s.setRegisters u).outQ = u.outQ := rfl
@[simp] theorem State.setRegisters_bus (u : Registers) : (s.setRegisters u).bus = u.bus := rfl
@[simp] theorem State.setRegisters_inProgress (u : Registers) : (s.setRegisters u).inProgress = u.inProgress := rfl
@[simp] theorem State.setRegisters_booted (u : Registers) : (s.setRegisters u).booted = s.booted := rfl
@[simp] theorem State.setRegisters_pending (u : Registers) : (s.setRegisters u).pending = s.pending := rfl
@[simp] theorem State.setRegisters_trace (u : Registers) : (s.setRegisters u).trace = s.trace := rfl

@[simp] theorem State.setBooted_seg (b : Bool) : (s.setBooted b).seg = s.seg := rfl
@[simp] theorem State.setBooted_win (b : Bool) : (s.setBooted b).win = s.win := rfl
@[simp] theorem State.setBooted_outQ (b : Bool) : (s.setBooted b).outQ = s.outQ := rfl
@[simp] theorem State.setBooted_bus (b : Bool) : (s.setBooted b).bus = s.bus := rfl
@[simp] theorem State.setBooted_inProgress (b : Bool) : (s.setBooted b).inProgress = s.inProgress := rfl
@[simp] theorem State.setBooted_booted (b : Bool) : (s.setBooted b).booted = b := rfl
@[simp] theorem State.setBooted_pending (b : Bool) : (s.setBooted b).pending = s.pending := rfl
@[simp] theorem State.setBooted_trace (b : Bool) : (s.setBooted b).trace = s.trace := rfl

@[simp] theorem State.setPending_seg (ds : List Drive) : (s.setPending ds).seg = s.seg := rfl
@[simp] theorem State.setPending_win (ds : List Drive) : (s.setPending ds).win = s.win := rfl
@[simp] theorem State.setPending_outQ (ds : List Drive) : (s.setPending ds).outQ = s.outQ := rfl
@[simp] theorem State.setPending_bus (ds : List Drive) : (s.setPending ds).bus = s.bus := rfl
@[simp] theorem State.setPending_inProgress (ds : List Drive) : (s.setPending ds).inProgress = s.inProgress := rfl
@[simp] theorem State.setPending_booted (ds : List Drive) : (s.setPending ds).booted = s.booted := rfl
@[simp] theorem State.setPending_pending (ds : List Drive) : (s.setPending ds).pending = ds := rfl
@[simp] theorem State.setPending_trace (ds : List Drive) : (s.setPending ds).trace = s.trace := rfl

@[simp] theorem State.log_seg (ev : PortEvent) : (s.log ev).seg = s.seg := rfl
@[simp] theorem State.log_win (ev : PortEvent) : (s.log ev).win = s.win := rfl
@[simp] theorem State.log_outQ (ev : PortEvent) : (s.log ev).outQ = s.outQ := rfl
@[simp] theorem State.log_bus (ev : PortEvent) : (s.log ev).bus = s.bus := rfl
@[simp] theorem State.log_inProgress (ev : PortEvent) : (s.log ev).inProgress = s.inProgress := rfl
@[simp] theorem State.log_booted (ev : PortEvent) : (s.log ev).booted = s.booted := rfl
@[simp] theorem State.log_pending (ev : PortEvent) : (s.log ev).pending = s.pending := rfl
@[simp] theorem State.log_trace (ev : PortEvent) : (s.log ev).trace = ev :: s.trace := rfl

@[simp] theorem resetBlock_seg : (resetBlock s).seg = .reset := rfl
@[simp] theorem resetBlock_win : (resetBlock s).win = .empty := rfl
@[simp] theorem resetBlock_outQ : (resetBlock s).outQ = [] := rfl
@[simp] theorem resetBlock_bus : (resetBlock s).bus = none := rfl
@[simp] theorem resetBlock_inProgress : (resetBlock s).inProgress = none := rfl
@[simp] theorem resetBlock_booted : (resetBlock s).booted = true := rfl
@[simp] theorem resetBlock_pending : (resetBlock s).pending = s.pending := rfl
@[simp] theorem resetBlock_trace : (resetBlock s).trace = s.trace := rfl

end Sys2Proof.Machine
end

