-- ==== Sys2Proof/Laws/Ops.lean ====
section
/-! SUPPORT. For each shared operation, once, everything it can do. -/

namespace Sys2Proof.Machine

/-! ### The segmenter -/

theorem breaks_iff (g : Segmenter) (x : InWord) : g.breaks x = true ↔ x ≠ g.prev ∨ g.count = Config.runCap := by
  simp [Segmenter.breaks]

@[simp] theorem next_prev (g : Segmenter) (x : InWord) : (g.next x).prev = x := by
  unfold Segmenter.next; split <;> rfl

/-- `seg_step` in its three ways (R80): the run goes on; nothing was pending and a run starts; the pending run comes out. -/
theorem seg_cases (g : Segmenter) (x : InWord) :
    (x = g.prev ∧ g.count ≠ Config.runCap ∧ g.next x = { prev := x, count := g.count + 1 } ∧ g.out x = none) ∨
    ((x ≠ g.prev ∨ g.count = Config.runCap) ∧ g.prev = Config.sent ∧ g.next x = { prev := x, count := 1 } ∧
      g.out x = none) ∨
    ((x ≠ g.prev ∨ g.count = Config.runCap) ∧ g.prev ≠ Config.sent ∧ g.next x = { prev := x, count := 1 } ∧
      g.out x = some { run := g.count, color := g.color }) := by
  by_cases hb : g.breaks x = true
  · have h := (breaks_iff g x).mp hb
    by_cases hs : g.prev = Config.sent
    · exact .inr (.inl ⟨h, hs, by simp [Segmenter.next, hb], by simp [Segmenter.out, hb, hs]⟩)
    · exact .inr (.inr ⟨h, hs, by simp [Segmenter.next, hb], by simp [Segmenter.out, hb, hs]⟩)
  · have h := mt (breaks_iff g x).mpr hb
    simp only [not_or, not_not, ne_eq] at h
    exact .inl ⟨h.1, h.2, by simp [Segmenter.next, hb], by simp [Segmenter.out, hb]⟩

section
variable (x : InWord) (s : State)

@[simp] theorem segStep_seg : (segStep x s).seg = s.seg.next x := rfl
@[simp] theorem segStep_win : (segStep x s).win = s.win := rfl
@[simp] theorem segStep_outQ : (segStep x s).outQ = s.outQ := rfl
@[simp] theorem segStep_bus : (segStep x s).bus = (s.seg.out x).map Range.toBus := rfl
@[simp] theorem segStep_inProgress : (segStep x s).inProgress = s.inProgress := rfl
@[simp] theorem segStep_booted : (segStep x s).booted = s.booted := rfl
@[simp] theorem segStep_pending : (segStep x s).pending = s.pending := rfl
@[simp] theorem segStep_trace : (segStep x s).trace = s.trace := rfl

end

/-! ### The compactor -/

theorem alternates_iff (w : Window) : w.alternates = true ↔
    w.w0.run = 1 ∧ w.w1.run = 1 ∧ w.w2.run = 1 ∧ w.w3.run = 1 ∧ w.w0.color = w.w2.color ∧ w.w1.color = w.w3.color := by
  simp [Window.alternates, and_assoc]

/-- The decision in its four cases, each with its condition, its byte and its window (R103 to R107, R109). -/
theorem decide_cases (w : Window) :
    (w.alternates = true ∧ w.emitted = some (colourByte w.w0.color true w.w1.color) ∧ w.decided = .empty) ∨
    (w.alternates = false ∧ w.w0.run = 1 ∧ w.w1.run ≠ 0 ∧
      w.emitted = some (colourByte w.w0.color false w.w1.color) ∧
      w.decided = { w with w0 := .empty, w1 := { w.w1 with run := w.w1.run - 1 } }) ∨
    (w.alternates = false ∧ w.w0.run ≠ 0 ∧ (w.w0.run = 1 → w.w1.run = 0) ∧
      w.emitted = some (rangeByte w.w0.run w.w0.color) ∧ w.decided = { w with w0 := .empty }) ∨
    (w.w0.run = 0 ∧ w.emitted = none ∧ w.decided = w) := by
  by_cases ha : w.alternates = true
  · have hc : w.caseTaken = .alternating := by simp [Window.caseTaken, ha]
    exact .inl ⟨ha, by simp [Window.emitted, hc], by simp [Window.decided, hc]⟩
  have ha' : w.alternates = false := by simpa using ha
  by_cases h1 : w.w0.run = 1#4 ∧ ¬ w.w1.run = 0#4
  · have hc : w.caseTaken = .absorption := by simp [Window.caseTaken, ha', h1]
    exact .inr (.inl ⟨ha', h1.1, h1.2, by simp [Window.emitted, hc], by simp [Window.decided, hc]⟩)
  by_cases h0 : w.w0.run = 0#4
  · have hc : w.caseTaken = .nothing := by simp [Window.caseTaken, ha', h0]
    exact .inr (.inr (.inr ⟨h0, by simp [Window.emitted, hc], by simp [Window.decided, hc]⟩))
  · have hc : w.caseTaken = .plain := by simp [Window.caseTaken, ha', h0, h1]
    have h1' : w.w0.run = 1 → w.w1.run = 0 := fun h => by_contra fun h' => h1 ⟨h, h'⟩
    exact .inr (.inr (.inl ⟨ha', h0, h1', by simp [Window.emitted, hc], by simp [Window.decided, hc]⟩))

section
variable (e : Range) (s : State)

@[simp] theorem cmpStep_seg : (cmpStep e s).seg = s.seg := rfl
@[simp] theorem cmpStep_win : (cmpStep e s).win = (s.win.shift e).decided := rfl
@[simp] theorem cmpStep_outQ : (cmpStep e s).outQ = s.outQ ++ (s.win.shift e).emitted.toList := rfl
@[simp] theorem cmpStep_bus : (cmpStep e s).bus = none := rfl
@[simp] theorem cmpStep_inProgress : (cmpStep e s).inProgress = s.inProgress := rfl
@[simp] theorem cmpStep_booted : (cmpStep e s).booted = s.booted := rfl
@[simp] theorem cmpStep_pending : (cmpStep e s).pending = s.pending := rfl
@[simp] theorem cmpStep_trace : (cmpStep e s).trace = s.trace := rfl

end

theorem takeBus_none {s : State} (h : s.bus = none) : takeBus s = s := by simp [takeBus, h]

theorem takeBus_some {s : State} {r : Range} (h : s.bus = some r.toBus) : takeBus s = cmpStep r s := by
  simp [takeBus, h]

@[simp] theorem pushPlaceholders_zero (s : State) : pushPlaceholders 0 s = s := rfl

@[simp] theorem pushPlaceholders_succ (n : Nat) (s : State) :
    pushPlaceholders (n + 1) s = pushPlaceholders n (cmpStep .empty s) := rfl

/-- Both stages on one segmenter word: the segmenter's three ways, and what the compactor then does (R131, R133). -/
theorem takeBus_segStep (x : InWord) (s : State) :
    (s.seg.out x = none ∧ takeBus (segStep x s) = (s.setSeg (s.seg.next x)).setBus none) ∨
    ∃ r, s.seg.out x = some r ∧ takeBus (segStep x s) = cmpStep r (s.setSeg (s.seg.next x)) := by
  cases h : s.seg.out x with
  | none => exact .inl ⟨rfl, by rw [takeBus_none (by simp [h])]; simp [segStep, h]⟩
  | some r => exact .inr ⟨r, rfl, by rw [takeBus_some (r := r) (by simp [h])]; rfl⟩

end Sys2Proof.Machine
end

