-- ==== Sys2Proof/Laws/PerInstr.lean ====
section
/-! SUPPORT. The family of laws about every operation's encoding: its byte holds a word of its level's width and nothing above. -/

namespace Sys2Proof.Laws.EncodeFits

/-- The operation's word fits the width of its level (R5, R60, R62, R137). -/
def Statement (i : Instr) : Prop := (encode i).toNat < 2 ^ i.level.width

theorem pix (idx : Index) : Statement (.pix idx) := by revert idx; unfold Statement; decide
theorem flush : Statement .flush := by unfold Statement; decide
theorem reset : Statement .reset := by unfold Statement; decide
theorem segPix (idx : Index) : Statement (.segPix idx) := by revert idx; unfold Statement; decide
theorem segFlush : Statement .segFlush := by unfold Statement; decide
theorem cmpPh (color : Index) : Statement (.cmpPh color) := by revert color; unfold Statement; decide
theorem cmpRange (run : RunLength) (color : Index) : Statement (.cmpRange run color) := by
  revert run color; unfold Statement; decide

end Sys2Proof.Laws.EncodeFits
end

