-- ==== Sys2Proof/Laws/Step.lean ====
section
/-! SUPPORT. What each operation, each port and each step comes to. -/

namespace Sys2Proof.Machine

section
variable (s : State)

theorem exec_pix (n : Index) : exec (.pix n) s = .next (takeBus (segStep (segWord n) s)) := rfl
theorem exec_flush : exec .flush s = .next (pushPlaceholders 4 (takeBus (segStep Config.sent s))) := rfl
theorem exec_reset : exec .reset s = .next (resetBlock s) := rfl
theorem exec_segPix (n : Index) : exec (.segPix n) s = .next (segStep (segWord n) s) := rfl
theorem exec_segFlush : exec .segFlush s = .next (segStep Config.sent s) := rfl
theorem exec_cmpPh (c : Index) : exec (.cmpPh c) s = .next (cmpStep { run := 0, color := c } s) := rfl
theorem exec_cmpRange (r : RunLength) (c : Index) : exec (.cmpRange r c) s = .next (cmpStep { run := r, color := c } s) := rfl

end

/-- The word of an accepted drive is a pixel or the end of an image (R68, R69). -/
theorem decodeIn_cases (w : InWord) :
    (inFlag w = true ∧ decodeIn w = .flush) ∨ (inFlag w = false ∧ decodeIn w = .pix (inIndex w)) := by
  cases h : inFlag w <;> simp [decodeIn, h]

/-- The host watches `idle`: it sees it, or not (R190). -/
theorem watchIdle_cases (e : Edge) (s : State) :
    (idleOut e s = false ∧ watchIdle e s = s) ∨ (idleOut e s = true ∧ watchIdle e s = s.log .idle) := by
  cases h : idleOut e s <;> simp [watchIdle, h]

section
variable (e : Edge) (s : State)

@[simp] theorem watchIdle_seg : (watchIdle e s).seg = s.seg := by unfold watchIdle; split <;> rfl
@[simp] theorem watchIdle_win : (watchIdle e s).win = s.win := by unfold watchIdle; split <;> rfl
@[simp] theorem watchIdle_outQ : (watchIdle e s).outQ = s.outQ := by unfold watchIdle; split <;> rfl
@[simp] theorem watchIdle_bus : (watchIdle e s).bus = s.bus := by unfold watchIdle; split <;> rfl
@[simp] theorem watchIdle_inProgress : (watchIdle e s).inProgress = s.inProgress := by unfold watchIdle; split <;> rfl
@[simp] theorem watchIdle_booted : (watchIdle e s).booted = s.booted := by unfold watchIdle; split <;> rfl
@[simp] theorem watchIdle_pending : (watchIdle e s).pending = s.pending := by unfold watchIdle; split <;> rfl
@[simp] theorem watchIdle_trace : (watchIdle e s).trace = if idleOut e s then .idle :: s.trace else s.trace := by
  unfold watchIdle; split <;> rfl

end

/-- Watching `idle` changes no output of the cycle. -/
@[simp] theorem outValid_watchIdle (e e' : Edge) (s : State) : outValid e (watchIdle e' s) = outValid e s := by
  simp [outValid]

@[simp] theorem transfers_watchIdle (e e' : Edge) (s : State) : transfers e (watchIdle e' s) = transfers e s := by
  simp [transfers]

/-- The `out` port after the first reset: a byte leaves the head of `out_q`, or nothing happens (R45). -/
theorem transferOut_cases (e : Edge) {s : State} (hb : s.booted = true) :
    (transfers e s = false ∧ transferOut e s = s) ∨
    ∃ b q, transfers e s = true ∧ s.outQ = b :: q ∧ transferOut e s = (s.setOutQ q).log (.byte b) := by
  cases h : transfers e s with
  | false => exact .inl ⟨rfl, by simp [transferOut, h]⟩
  | true =>
    cases hq : s.outQ with
    | nil => simp [transfers, outValid, hq, hb] at h
    | cons b q => exact .inr ⟨b, q, rfl, rfl, by simp [transferOut, h, hq]⟩

/-- The `in` port: a step starts on the normalised word, or nothing happens (R43). -/
theorem acceptIn_cases (e : Edge) (s₀ s : State) :
    (accepts e s₀ = false ∧ acceptIn e s₀ s = s) ∨
    (accepts e s₀ = true ∧ acceptIn e s₀ s = (s.setInProgress (some (normalise e.inData))).log (.word e.inData)) := by
  cases h : accepts e s₀ <;> simp [acceptIn, h]

/-- The step in progress: it stays, or it completes now. -/
theorem finishStep_cases (e : Edge) (s : State) :
    ((s.inProgress = none ∨ e.doneDraw = false) ∧ finishStep e s = .next s) ∨
    ∃ w, s.inProgress = some w ∧ e.doneDraw = true ∧ finishStep e s = exec (decodeIn w) (s.setInProgress none) := by
  cases hp : s.inProgress with
  | none => exact .inl ⟨.inl rfl, by simp [finishStep, hp]⟩
  | some w =>
    cases hd : e.doneDraw with
    | false => exact .inl ⟨.inr rfl, by simp [finishStep, hp, hd]⟩
    | true => exact .inr ⟨w, rfl, rfl, by simp [finishStep, hp, hd]⟩

/-- What makes `in_ready` 1 after the first reset (R44). -/
theorem inReady_iff (e : Edge) {s : State} (hb : s.booted = true) :
    inReady e s = true ↔ e.rst = false ∧ s.inProgress = none ∧ s.hasRoom = true ∧ e.readyDraw = true := by
  cases h : e.rst <;> simp [inReady, h, hb, and_assoc]

theorem step_nil {s : State} (h : s.pending = []) : step s = .next s := by simp [step, h]

theorem step_cons {s : State} {d : Drive} {rest : List Drive} (h : s.pending = d :: rest) :
    step s = runDrive d (s.setPending rest) := by simp [step, h]

theorem step_rst {s : State} {e : Edge} {rest : List Drive} (h : s.pending = .edge e :: rest) (hr : e.rst = true) :
    step s = .next (resetBlock ((watchIdle e (s.setPending rest)).log .rst)) := by
  simp [step_cons h, runDrive, clockEdge, hr, exec_reset]

theorem step_edge {s : State} {e : Edge} {rest : List Drive} (h : s.pending = .edge e :: rest) (hr : e.rst = false)
    (hb : s.booted = true) :
    step s = finishStep e (acceptIn e (s.setPending rest) (transferOut e (watchIdle e (s.setPending rest)))) := by
  simp [step_cons h, runDrive, clockEdge, hr, hb]

theorem step_unbooted {s : State} {e : Edge} {rest : List Drive} (h : s.pending = .edge e :: rest) (hr : e.rst = false)
    (hb : s.booted = false) : step s = .next (unbootedEdge e (s.setPending rest)) := by
  simp [step_cons h, runDrive, clockEdge, hr, hb]

/-- Everything a step can do: nothing is scheduled; reset; an edge after the first reset, or before it; a sub-unit alone. -/
theorem step_cases (s : State) :
    (s.pending = [] ∧ step s = .next s) ∨
    (∃ e rest, s.pending = .edge e :: rest ∧ e.rst = true ∧
      step s = .next (resetBlock ((watchIdle e (s.setPending rest)).log .rst))) ∨
    (∃ e rest, s.pending = .edge e :: rest ∧ e.rst = false ∧ s.booted = true ∧
      step s = finishStep e (acceptIn e (s.setPending rest) (transferOut e (watchIdle e (s.setPending rest))))) ∨
    (∃ e rest, s.pending = .edge e :: rest ∧ e.rst = false ∧ s.booted = false ∧
      step s = .next (unbootedEdge e (s.setPending rest))) ∨
    (∃ w rest, s.pending = .seg w :: rest ∧ step s = exec (decodeSeg w) (s.setPending rest)) ∨
    ∃ w rest, s.pending = .cmp w :: rest ∧ step s = exec (decodeBus w) (s.setPending rest) := by
  cases hp : s.pending with
  | nil => exact .inl ⟨rfl, step_nil hp⟩
  | cons d rest =>
    cases d with
    | seg w => exact .inr (.inr (.inr (.inr (.inl ⟨w, rest, rfl, step_cons hp⟩))))
    | cmp w => exact .inr (.inr (.inr (.inr (.inr ⟨w, rest, rfl, step_cons hp⟩))))
    | edge e =>
      cases hr : e.rst with
      | true => exact .inr (.inl ⟨e, rest, rfl, hr, step_rst hp hr⟩)
      | false =>
        cases hb : s.booted with
        | true => exact .inr (.inr (.inl ⟨e, rest, rfl, hr, rfl, step_edge hp hr hb⟩))
        | false => exact .inr (.inr (.inr (.inl ⟨e, rest, rfl, hr, rfl, step_unbooted hp hr hb⟩)))

end Sys2Proof.Machine
end

