-- ==== Sys2Proof/Tests/Slice0.lean ====
section
/-! SUPPORT. Tests, each from a vector of 95_test_vectors.md named in its comment, and a witness for every statement with hypotheses. -/

namespace Sys2Proof.Tests

open Sys2Proof Sys2Proof.Machine

/-- A state with these segmenter registers and this window. -/
def stateOf (prev : InWord) (count : RunLength) (w : Window) : State :=
  { State.reset with seg := ⟨prev, count⟩, win := w }

/-- What an outcome's next state shows: segmenter, window, bus, `out_q`. -/
def view : Host.Outcome State Fault Refusal → Option (Segmenter × Window × Option BusWord × List Byte)
  | .next t => some (t.seg, t.win, t.bus, t.outQ)
  | .fault _ => none
  | .refused _ => none

/-- `E`, an empty slot. -/
abbrev E : Range := ⟨0, 0⟩

/-! ### Well-formedness and decoding -/

theorem test_cmpRange_run0_illFormed : (Instr.cmpRange 0 3).wellFormed = false := by decide

-- R60: 0b0101 is PIX 5; R61: 0b1011 is FLUSH; R68: rst = 1.
theorem test_decode_pix : decode .inPort [0b00000101] = .ok (.pix 5, []) := by decide
theorem test_decode_flush_any_low_bits : decode .inPort [0b00001011] = .ok (.flush, []) := by decide
theorem test_decode_reset : decode .rstPin [0b00000001] = .ok (.reset, []) := by decide
theorem test_decode_rst_low : decode .rstPin [0b00000000] = .error .rstLow := by decide
-- R68: the segmenter's words; R62: run 5 = 0101, colour 3 = 011 (T-E11); R63: T-E8.
theorem test_decode_segPix : decode .segmenter [0b00000110] = .ok (.segPix 6, []) := by decide
theorem test_decode_segFlush : decode .segmenter [0b00001000] = .ok (.segFlush, []) := by decide
theorem test_decode_cmpRange : decode .compactor [0b00101011] = .ok (.cmpRange 5 3, []) := by decide
theorem test_decode_cmpPh : decode .compactor [0b00000110] = .ok (.cmpPh 6, []) := by decide
theorem test_decode_too_wide : decode .inPort [0b00010000] = .error .tooWide := by decide
theorem test_decode_no_byte : decode .inPort [] = .error .noByte := by decide
theorem test_table_words : decodeTableWord 8 0 = some (.pix 0) ∧ decodeTableWord 8 8 = some .flush ∧
    decodeTableWord 1 1 = some .reset ∧ decodeTableWord 8 127 = some (.cmpRange 15 7) ∧ decodeTableWord 8 128 = none := by
  decide

/-! ### Output bytes: T-E12 to T-E18, T-D4 -/

theorem test_byte_layouts : rangeByte 15 6 = 0xFE ∧ colourByte 1 true 2 = 0x1A ∧ colourByte 3 false 1 = 0x31 := by decide
theorem test_byte_readings : readByte 0x8D = .range 1 5 ∧ readByte 0x1A = .pattern 1 2 ∧ readByte 0x07 = .pair 0 7 := by
  decide
theorem test_expand : expand 0x1A = [1, 2, 1, 2] ∧ expand 0x31 = [3, 1] ∧ expand 0x80 = [] := by decide
theorem test_checker_stops : checkBytes [0x8D, 0x87] = .error (.runZero 0x87) ∧ checkBytes [0x12, 0x8A] = .ok [1, 2, 2] := by
  decide
-- R72: IMAGE 4 after RUN 4, 2.
theorem test_assemble : assemble [.run 4 2, .comment "again", .image [4]] = [.pix 4, .pix 4, .pix 4, .flush] := by decide
theorem test_wordsBehindReset : wordsBehindReset [.pix 1, .reset, .pix 4, .flush] = [0x4, 0x8] := by decide
theorem test_reading_text : (readByte 0x31).text = "C(3,1)" := by decide

/-- Every pin and draw at 1, but for `rst`. -/
def eagerEdge (w : InWord) : Edge :=
  { rst := false, inValid := true, inData := w, outReady := true, readyDraw := true, validDraw := true, dataDraw := 0,
    doneDraw := true, idleDraw := true, powerDraw := .reset }

/-! ### One operation each -/

-- T-S5: the cap; T-S3: a colour change.
theorem test_segPix_cap : view (exec (.segPix 3) (stateOf 3 15 .empty)) = some (⟨3, 1⟩, .empty, some 0b1111011, []) := by decide
theorem test_segPix_change : view (exec (.segPix 5) (stateOf 3 7 .empty)) = some (⟨5, 1⟩, .empty, some 0b0111011, []) := by decide
-- T-S8; T-S10.
theorem test_segFlush_pending : view (exec .segFlush (stateOf 6 4 .empty)) = some (⟨8, 1⟩, .empty, some 0b0100110, []) := by decide
theorem test_segFlush_twice : view (exec .segFlush (stateOf 8 2 .empty)) = some (⟨8, 3⟩, .empty, none, []) := by decide
-- T-C1: case 1; T-C2: case 2.
theorem test_cmpRange_alternating : view (exec (.cmpRange 1 2) (stateOf 8 1 ⟨E, ⟨1, 1⟩, ⟨1, 2⟩, ⟨1, 1⟩⟩)) =
    some (⟨8, 1⟩, ⟨E, E, E, E⟩, none, [0x1A]) := by decide
theorem test_cmpRange_absorbs : view (exec (.cmpRange 2 2) (stateOf 8 1 ⟨E, ⟨1, 1⟩, ⟨1, 2⟩, ⟨1, 1⟩⟩)) =
    some (⟨8, 1⟩, ⟨E, ⟨0, 2⟩, ⟨1, 1⟩, ⟨2, 2⟩⟩, none, [0x12]) := by decide
-- T-C7: case 3; T-C12: case 4 keeps the empty slot's colour.
theorem test_cmpPh_plain : view (exec (.cmpPh 0) (stateOf 8 1 ⟨E, ⟨15, 7⟩, E, E⟩)) =
    some (⟨8, 1⟩, ⟨E, E, E, E⟩, none, [0xFF]) := by decide
theorem test_cmpPh_empty : view (exec (.cmpPh 0) (stateOf 8 1 ⟨E, E, ⟨0, 6⟩, ⟨1, 1⟩⟩)) =
    some (⟨8, 1⟩, ⟨E, ⟨0, 6⟩, ⟨1, 1⟩, E⟩, none, []) := by decide
-- P3 step 6; P12 step 16.
theorem test_pix_absorbs : view (exec (.pix 2) (stateOf 1 1 ⟨E, ⟨1, 3⟩, ⟨2, 1⟩, ⟨1, 2⟩⟩)) =
    some (⟨2, 1⟩, ⟨E, ⟨1, 1⟩, ⟨1, 2⟩, ⟨1, 1⟩⟩, none, [0x31]) := by decide
theorem test_pix_cap : view (exec (.pix 2) (stateOf 2 15 .empty)) = some (⟨2, 1⟩, ⟨E, E, E, ⟨15, 2⟩⟩, none, []) := by decide
-- P13 step 21; P7.
theorem test_flush_four_bytes : view (exec .flush (stateOf 3 5 ⟨E, ⟨5, 0⟩, ⟨5, 1⟩, ⟨5, 2⟩⟩)) =
    some (⟨8, 1⟩, .empty, none, [0xA8, 0xA9, 0xAA, 0xAB]) := by decide
theorem test_flush_empty_image : view (exec .flush State.reset) = some (⟨8, 2⟩, .empty, none, []) := by decide
-- P16 step 3 (T-R2), with bytes still queued (T-R3).
theorem test_reset_mid_image : view (exec .reset { stateOf 1 2 ⟨E, E, E, ⟨1, 3⟩⟩ with outQ := [0x31] }) =
    some (⟨8, 1⟩, .empty, none, []) := by decide

/-! ### Steps -/

/-- The block at power-on with some values in its registers, none of them a reset value. -/
def atPowerOn (drives : List Drive) : State :=
  State.powerOn { seg := ⟨9, 0⟩, win := ⟨⟨3, 1⟩, E, ⟨7, 7⟩, E⟩, outQ := [0x80, 0x00], bus := some 5, inProgress := some 12 } drives

-- The host's question: a table word presented to the reset state is run by the next step.
theorem test_step_runs_pix : view (step (State.reset.withFetchWord 8 5)) = some (⟨5, 1⟩, .empty, none, []) := by decide
theorem test_step_runs_flush : view (step (State.reset.withFetchWord 8 15)) = some (⟨8, 2⟩, .empty, none, []) := by decide
-- T-R7: reset beats both transfers.
theorem test_reset_beats_transfers : view (step { stateOf 1 2 .empty with outQ := [0x31], pending :=
    [.edge { eagerEdge 3 with rst := true }] }) = some (⟨8, 1⟩, .empty, none, []) := by decide
-- R182: before the first reset the outputs are the cycle's draws, whatever the registers hold; R183: one edge of `rst` ends that.
theorem test_outputs_before_reset : idleOut (eagerEdge 3) (atPowerOn []) = true ∧
    idleOut (eagerEdge 3) { atPowerOn [] with booted := true } = false := by decide
theorem test_reset_after_power_on : view (step (atPowerOn [.edge resetEdge])) = some (⟨8, 1⟩, .empty, none, []) := by decide
-- R190, P1: the image `[5]`, its byte 0x8D, and an empty image after it, each up to its first idle cycle.
theorem test_imageOutput : (imageOutput 0 [.idle, .word 5, .idle, .word 8, .byte 0x8D, .idle, .word 8, .idle] = some [0x8D]) ∧
    (imageOutput 1 [.idle, .word 5, .idle, .word 8, .byte 0x8D, .idle, .word 8, .idle] = some []) ∧
    imageOutput 0 [.word 5, .word 8, .byte 0x8D] = none ∧ imageOutput 0 [.word 5, .rst, .word 8, .idle] = none := by decide
-- T-R6: with OUT_DEPTH - 3 bytes queued, `in_ready` is 0.
theorem test_inReady_low_without_room (e : Edge) :
    inReady e { State.reset with outQ := List.replicate (Config.outSlack + 1) 0 } = false := by
  simp [inReady, State.hasRoom, Config.outDepth, List.replicate_succ, State.reset]

/-! ### Witnesses: states that meet the statements' hypotheses -/

/-- The block after the words 3, 5, 5, with a FLUSH offered at the next edge. -/
def midImage : State :=
  { State.reset with
    seg := ⟨5, 2⟩, win := ⟨E, E, E, ⟨1, 3⟩⟩, pending := [.edge (eagerEdge 8)],
    trace := [.word 5, .word 5, .word 3] }

/-- The block after the image `[3]`, its one byte taken. -/
def imageDone : State :=
  { State.reset with trace := [.byte 0x8B, .word 8, .word 3] }

theorem witness_ResetEdgeResetsTheBlock : ∃ (s : State) (e : Edge) (rest : List Drive), s.pending = Drive.edge e :: rest ∧ e.rst = true ∧ s.outQ ≠ [] :=
  ⟨{ midImage with outQ := [0x31], pending := [.edge resetEdge] }, resetEdge, [], by decide⟩

theorem witness_NothingIsSpecifiedBeforeReset : ∃ (s : State) (e : Edge) (rest : List Drive), s.booted = false ∧
    s.pending = Drive.edge e :: rest ∧ e.rst = false :=
  ⟨atPowerOn [.edge (eagerEdge 3)], eagerEdge 3, [], by decide⟩

theorem witness_ProgramsRunFromPowerOn : ∃ (p : List Line) (s : State) (rest : List Drive),
    (∀ i ∈ assemble p, i.level = .inPort ∨ i.level = .rstPin) ∧ s.pending = bootDrives p ++ rest ∧ s.booted = false ∧
    assemble p = [.pix 4, .pix 4, .flush, .reset, .pix 3, .flush] :=
  ⟨[.run 4 2, .op .flush, .op .reset, .image [3]],
    atPowerOn (bootDrives [.run 4 2, .op .flush, .op .reset, .image [3]] ++ []), [], by decide, rfl, rfl, by decide⟩

-- Two images, `[3]` and the empty one, from power-on: nine edges with every pin and draw at 1 are enough.
theorem witness_HostGetsItsImages :
    (hostRun (List.replicate 9 (eagerEdge 0)) (.atPowerOn 1 [[3], []]) (atPowerOn [])).1.phase = .done := by decide

theorem witness_DecodeUndoesEncode : (Instr.cmpRange 15 7).wellFormed = true ∧ (Instr.cmpRange 1 0).wellFormed = true := by decide

-- The last PIX word and the first FLUSH word; the last placeholder and the first range.
theorem witness_OpcodeMapSelects : (7 : InWord).getLsbD 3 = false ∧ (8 : InWord).getLsbD 3 = true ∧
    (7 : BusWord).extractLsb' 3 4 = 0 ∧ (8 : BusWord).extractLsb' 3 4 ≠ 0 := by decide

theorem witness_SegFlushWithNothingPending : (stateOf 8 14 .empty).seg.prev = 0b1000 ∧ (stateOf 8 14 .empty).seg.count ≠ 15 := by
  decide

theorem witness_SegCountStaysInRange : (∃ n, Instr.segPix 3 = .segPix n) ∧ (stateOf 3 15 .empty).seg.count ≠ 0 :=
  ⟨⟨3, rfl⟩, by decide⟩

theorem witness_SegNeighbours : (segRanges (List.replicate 16 2))[0]? = some ⟨15, 2⟩ ∧
    (segRanges (List.replicate 16 2))[0 + 1]? = some ⟨1, 2⟩ := by decide

-- T-C1.
theorem witness_CmpAlternatingPair : ∃ (s : State) (e : Range), pushedRange (.cmpRange 1 2) = some e ∧ s.win.w1.run = 1 ∧
    s.win.w2.run = 1 ∧ s.win.w3.run = 1 ∧ e.run = 1 ∧ s.win.w1.color = s.win.w3.color ∧ s.win.w2.color = e.color :=
  ⟨stateOf 8 1 ⟨E, ⟨1, 1⟩, ⟨1, 2⟩, ⟨1, 1⟩⟩, ⟨1, 2⟩, by decide⟩

-- T-C5, and a run of 15 behind the singleton.
theorem witness_CmpSingletonAbsorption : ∃ s : State, pushedRange (.cmpPh 0) = some E ∧
    ¬ (s.win.w1.run = 1 ∧ s.win.w2.run = 1 ∧ s.win.w3.run = 1 ∧ E.run = 1 ∧ s.win.w1.color = s.win.w3.color ∧
      s.win.w2.color = E.color) ∧ s.win.w1.run = 1 ∧ 1 ≤ s.win.w2.run ∧ s.win.w2.run = 15 :=
  ⟨stateOf 8 1 ⟨E, ⟨1, 5⟩, ⟨15, 2⟩, E⟩, by decide⟩

-- T-C6 (a lone singleton), and T-C13.
theorem witness_CmpPlainRange : ∃ s s' : State, pushedRange (.cmpPh 0) = some E ∧
    (s.win.w1.run ≠ 0 ∧ ¬ (s.win.w1.run = 1 ∧ 1 ≤ s.win.w2.run) ∧ s.win.w1.run = 1) ∧
    (s'.win.w1.run ≠ 0 ∧ ¬ (s'.win.w1.run = 1 ∧ 1 ≤ s'.win.w2.run) ∧ s'.win.w1.run = 2) :=
  ⟨stateOf 8 1 ⟨E, ⟨1, 5⟩, E, E⟩, stateOf 8 1 ⟨E, ⟨2, 4⟩, ⟨1, 4⟩, ⟨2, 4⟩⟩, by decide⟩

-- T-C10.
theorem witness_CmpEmptySlot : pushedRange (.cmpRange 1 2) = some ⟨1, 2⟩ ∧
    (stateOf 2 1 ⟨E, ⟨0, 4⟩, ⟨1, 2⟩, ⟨1, 3⟩⟩).win.w1.run = 0 := by decide

theorem witness_MicroStepCovers : pushedRange (.cmpPh 6) = some ⟨0, 6⟩ ∧ pushedRange (.cmpRange 1 2) = some ⟨1, 2⟩ := by decide

-- A run that goes on; the first pixel; the cap; a change of colour.
theorem witness_PixDoesBothStages : ((3 : Index).setWidth 4 = (stateOf 3 14 .empty).seg.prev ∧ (stateOf 3 14 .empty).seg.count ≠ 15) ∧
    State.reset.seg.prev = 0b1000 ∧
    ((stateOf 3 15 .empty).seg.prev ≠ 0b1000 ∧ (stateOf 3 15 .empty).seg.count = 15) ∧
    ((stateOf 3 1 .empty).seg.prev ≠ 0b1000 ∧ (4 : Index).setWidth 4 ≠ (stateOf 3 1 .empty).seg.prev) := by decide

theorem witness_SecondFlushIsHarmless : ∃ s : State, s.seg.prev = 0b1000 ∧ s.win.w0.run = 0 ∧ s.win.w1.run = 0 ∧
    s.win.w2.run = 0 ∧ s.win.w3.run = 0 ∧ s.bus = none ∧ s.seg.count = 15 :=
  ⟨stateOf 8 15 ⟨E, ⟨0, 4⟩, E, E⟩, by decide⟩

theorem witness_TopStepsLoseNoPixel : midImage.win.w0.run = 0 ∧ midImage.held = [3, 5, 5] := by decide

theorem witness_SourceExamplesEncode : ∃ (s : State) (a b : Index), s.seg.prev = 0b1000 ∧ s.win.w1.run = 0 ∧ s.win.w2.run = 0 ∧
    s.win.w3.run = 0 ∧ a ≠ b :=
  ⟨imageDone, 4, 5, by decide⟩

theorem witness_InstructionFrames : (∃ n, Instr.segPix 7 = .segPix n) ∧ pushedRange (.cmpPh 0) = some E ∧
    ∃ n, Instr.pix 0 = .pix n :=
  ⟨⟨7, rfl⟩, rfl, ⟨0, rfl⟩⟩

theorem witness_InReadyRule : midImage.booted = true ∧ resetEdge.rst = true ∧ ({ midImage with inProgress := some 5 } : State).inProgress.isSome = true ∧
    Config.outDepth < (List.replicate (Config.outSlack + 1) (0 : Byte)).length + 4 ∧
    ((eagerEdge 3).rst = false ∧ midImage.inProgress = none ∧ midImage.outQ.length + 4 ≤ Config.outDepth) := by
  refine ⟨rfl, rfl, rfl, ?_, rfl, rfl, ?_⟩
  · simp [Config.outDepth, Config.maxStepBytes]
  · simp [midImage, State.reset, Config.outDepth, Config.maxStepBytes]

theorem witness_OutPortRule : midImage.booted = true ∧ outValid (eagerEdge 3) { midImage with outQ := [0x31] } = true ∧ (eagerEdge 3).outReady = true ∧
    (eagerEdge 3).rst = false ∧ outValid (eagerEdge 3) midImage = false := by decide

theorem witness_StepRunsTheAcceptedWord : ∃ (s : State) (e : Edge) (rest : List Drive), s.booted = true ∧ s.pending = Drive.edge e :: rest ∧ e.rst = false ∧ e.inValid = true ∧
    inReady e s = true ∧ e.doneDraw = true :=
  ⟨midImage, eagerEdge 8, [], by decide⟩

theorem witness_StepInProgress : (∃ (s : State) (e : Edge) (rest : List Drive), s.booted = true ∧ s.pending = Drive.edge e :: rest ∧ e.rst = false ∧ e.inValid = true ∧
    inReady e s = true ∧ e.doneDraw = false) ∧
    ∃ (s : State) (e : Edge) (rest : List Drive) (w : InWord), s.booted = true ∧ s.pending = Drive.edge e :: rest ∧ e.rst = false ∧ s.inProgress = some w ∧ e.doneDraw = true :=
  ⟨⟨{ midImage with pending := [.edge { eagerEdge 11 with doneDraw := false }] }, { eagerEdge 11 with doneDraw := false }, [],
      by decide⟩,
    ⟨{ midImage with inProgress := some 8 }, eagerEdge 8, [], 8, by decide⟩⟩

-- One operation at each level.
theorem witness_PresentedOperationRuns : ∀ i ∈ [Instr.pix 7, .flush, .reset, .segPix 3, .segFlush, .cmpPh 6, .cmpRange 15 7],
    i.wellFormed = true ∧ ({ midImage with pending := [driveOf i] } : State).pending = driveOf i :: [] ∧
      midImage.booted = true ∧ midImage.inProgress = none ∧ midImage.hasRoom = true := by decide

-- With a step in progress, for any OUT_DEPTH; with a word accepted, where OUT_DEPTH is 5 or more.
theorem witness_BothTransfersAtOneEdge : ∃ (s : State) (e : Edge) (q : List Byte), s.booted = true ∧ s.pending = .edge e :: [] ∧ e.rst = false ∧
    e.doneDraw = true ∧ s.outQ = 0x31 :: q ∧ outValid e s = true ∧ e.outReady = true ∧ s.inProgress = some 8 :=
  ⟨{ midImage with outQ := [0x31, 0x32], inProgress := some 8 }, eagerEdge 8, [0x32], by decide⟩

theorem witness_BothTransfersWithAWord (h : 5 ≤ Config.outDepth) : ∃ (s : State) (e : Edge), s.booted = true ∧ s.pending = .edge e :: [] ∧
    e.rst = false ∧ e.doneDraw = true ∧ s.outQ = 0x31 :: [] ∧ outValid e s = true ∧ e.outReady = true ∧ e.inValid = true ∧
    inReady e s = true :=
  ⟨{ midImage with outQ := [0x31] }, eagerEdge 8, rfl, rfl, rfl, rfl, rfl, rfl, rfl, rfl, by
    simpa [inReady, State.hasRoom, midImage, eagerEdge, State.reset, Config.maxStepBytes] using h⟩

theorem witness_NothingWithoutAWord : (∃ (s : State) (e : Edge) (rest : List Drive), s.booted = true ∧ s.pending = Drive.edge e :: rest ∧ e.rst = false ∧ e.inValid = false ∧
    s.inProgress = none ∧ transfers e s = true) ∧
    ∃ (s : State) (e : Edge) (rest : List Drive), s.booted = true ∧ s.pending = Drive.edge e :: rest ∧ e.rst = false ∧ inReady e s = false ∧ s.inProgress = none :=
  ⟨⟨{ midImage with outQ := [0x31], pending := [.edge takeEdge] }, takeEdge, [], by decide⟩,
    ⟨{ midImage with pending := [.edge { eagerEdge 3 with readyDraw := false }] }, { eagerEdge 3 with readyDraw := false }, [],
      by decide⟩⟩

theorem witness_QueueDrains : ∃ (s : State) (es : List Edge), s.booted = true ∧ s.pending = es.map .edge ++ [] ∧ es.length = s.outQ.length ∧
    (∀ e ∈ es, e.rst = false ∧ e.inValid = false ∧ e.outReady = true ∧ e.validDraw = true) ∧ s.inProgress = none ∧
    s.outQ = [0x31, 0x1A] :=
  ⟨{ State.reset with outQ := [0x31, 0x1A], pending := [.edge takeEdge, .edge takeEdge] }, [takeEdge, takeEdge], by decide⟩

theorem witness_StreamsAreLive : midImage.booted = true ∧ FairSchedule (fun _ => eagerEdge 3) ∧ ∀ n : Nat, ((fun _ => eagerEdge 3) n).inValid = true :=
  ⟨rfl, ⟨fun _ => rfl, fun n => ⟨n, le_rfl, rfl, rfl⟩, fun n => ⟨n, le_rfl, rfl⟩, fun n => ⟨n, le_rfl, rfl⟩⟩, fun _ => rfl⟩

theorem witness_HostFinishes : FairSchedule (fun _ => eagerEdge 3) ∧ ∀ n : Nat, ((fun _ => eagerEdge 3) n).inValid = true :=
  witness_StreamsAreLive.2

theorem witness_ResetMeetsTheInvariants : ∃ (s : State) (e : Edge) (rest : List Drive),
    s.portsOnly ∧ s.pending = .edge e :: rest ∧ e.rst = true ∧ s.booted = false :=
  ⟨atPowerOn [.edge resetEdge], resetEdge, [], fun d hd => ⟨resetEdge, by simpa [atPowerOn, State.powerOn] using hd⟩, rfl, rfl, rfl⟩

-- The hypotheses of the six statements about what a step keeps, all at one state in the middle of an image.
theorem witness_midImage_portsOnly : midImage.portsOnly := by
  intro d hd
  simp only [midImage, List.mem_singleton] at hd
  exact ⟨_, hd⟩

theorem witness_StepKeepsRegisterRanges : midImage.booted = true ∧ midImage.portsOnly ∧ midImage.kept ∧ ∃ t, step midImage = .next t :=
  ⟨rfl, witness_midImage_portsOnly, ⟨by decide, by decide, by decide, by decide, rfl, by simp [midImage, State.reset]⟩, _, rfl⟩

theorem witness_StepKeepsOutputClean : midImage.splitOnly ∧ midImage.cleanOutput :=
  ⟨⟨by decide, by decide, by decide⟩, by
    have h : midImage.emittedBytes = [] := by decide
    simp [State.cleanOutput, h]⟩

theorem witness_StepKeepsQueueBounded : midImage.bounded :=
  ⟨by simp [midImage, State.reset], by simp [midImage, State.reset]⟩

theorem witness_StepKeepsPixelAccount : midImage.accounted :=
  ⟨by decide, by simp [State.tracked, midImage, State.reset], by decide⟩

theorem witness_StepKeepsReplay : midImage.replayed :=
  ⟨by simp [State.tracked, midImage, State.reset], _, rfl, rfl, rfl, rfl⟩

theorem witness_IdleAfterFlushIsComplete : imageDone.kept ∧ imageDone.accounted ∧ imageDone.idle = true ∧
    imageDone.seg.prev = 0b1000 :=
  ⟨⟨by decide, by decide, by decide, fun _ => rfl, rfl, by simp [imageDone, State.reset]⟩,
    ⟨by decide, by simp [State.tracked, imageDone, State.reset], by decide⟩, by decide, by decide⟩

theorem witness_UnobservableStaysSo :
    (stateOf 8 3 ⟨E, ⟨0, 4⟩, E, E⟩).alike (stateOf 8 1 .empty) ∧ stateOf 8 3 ⟨E, ⟨0, 4⟩, E, E⟩ ≠ stateOf 8 1 .empty :=
  ⟨⟨.inr ⟨rfl, rfl⟩, .inl rfl, .inr ⟨rfl, rfl⟩, .inl rfl, .inl rfl, rfl, rfl, rfl, rfl, rfl, rfl⟩, by decide⟩

end Sys2Proof.Tests
end

section
/-! The reset values (R31), field by field, and the statements of 10_state.md that rest on them. -/

namespace Sys2Proof.Machine

@[simp] theorem State.reset_seg : State.reset.seg = .reset := rfl
@[simp] theorem State.reset_win : State.reset.win = .empty := rfl
@[simp] theorem State.reset_outQ : State.reset.outQ = [] := rfl

@[simp] theorem Segmenter.reset_prev : Segmenter.reset.prev = Config.sent := rfl
@[simp] theorem Segmenter.reset_count : Segmenter.reset.count = 1 := rfl

@[simp] theorem Window.empty_w0 : Window.empty.w0 = .empty := rfl
@[simp] theorem Window.empty_w1 : Window.empty.w1 = .empty := rfl
@[simp] theorem Window.empty_w2 : Window.empty.w2 = .empty := rfl
@[simp] theorem Window.empty_w3 : Window.empty.w3 = .empty := rfl

/-- Settles O1: the sentinel is `0b1000` and an `EMPTY` slot is run 0, colour 0, so the fields of the reset state read as R31
writes them. -/
theorem resetStateHoldsSpecValues : Obligations.ResetStateHoldsSpecValues := by
  unfold Obligations.ResetStateHoldsSpecValues
  rw [State.reset_seg, State.reset_win]
  exact ⟨Segmenter.reset_prev, Segmenter.reset_count, Window.empty_w0, Window.empty_w1, Window.empty_w2, Window.empty_w3,
    State.reset_outQ⟩

end Sys2Proof.Machine
end

section
/-! What selects each operation (30_encoding.md R60, R63, R68): each decoder's two answers, the selecting bits as the premise. -/

namespace Sys2Proof

section
variable {w : InWord}

theorem decodeIn_of_flag_clear (h : inFlag w = false) : decodeIn w = .pix (inIndex w) := by
  rw [decodeIn, h, if_neg Bool.false_ne_true]

theorem decodeIn_of_flag_set (h : inFlag w = true) : decodeIn w = .flush := if_pos h

theorem decodeSeg_of_flag_clear (h : inFlag w = false) : decodeSeg w = .segPix (inIndex w) := by
  rw [decodeSeg, h, if_neg Bool.false_ne_true]

theorem decodeSeg_of_flag_set (h : inFlag w = true) : decodeSeg w = .segFlush := if_pos h

end

section
variable {w : BusWord}

theorem decodeBus_of_run_zero (h : busRun w = 0) : decodeBus w = .cmpPh (busColor w) := if_pos h

theorem decodeBus_of_run_ne_zero (h : busRun w ≠ 0) : decodeBus w = .cmpRange (busRun w) (busColor w) := if_neg h

end

theorem decodeByte_rst_high : decodeByte .rstPin 1 = .ok .reset := by decide
theorem decodeByte_rst_low : decodeByte .rstPin 0 = .error .rstLow := by decide

/-- Settles O6: `F` and the bus word's `run` are the bits the statement names, so each clause is one answer of one decoder. -/
theorem opcodeMapSelects : Obligations.OpcodeMapSelects := by
  unfold Obligations.OpcodeMapSelects
  refine ⟨fun w => ⟨?clear, ?set⟩, fun w => ⟨?placeholder, ?range⟩, decodeByte_rst_high, decodeByte_rst_low⟩
  case clear => exact fun h => ⟨decodeIn_of_flag_clear h, decodeSeg_of_flag_clear h⟩
  case set => exact fun h => ⟨decodeIn_of_flag_set h, decodeSeg_of_flag_set h⟩
  case placeholder => exact decodeBus_of_run_zero
  case range => exact decodeBus_of_run_ne_zero

end Sys2Proof
end

section
/-! The fields of each word format (30_encoding.md R67), read from the layouts of R60, R62, R65 and R66. A layout is a
concatenation, so a field's bits all lie in one of its parts. -/

namespace Sys2Proof

section
variable (n : Index)

@[simp] theorem inFlag_pixWord : inFlag (0#1 ++ n) = false := BitVec.getLsbD_append
@[simp] theorem inFlag_flushWord : inFlag (1#1 ++ n) = true := BitVec.getLsbD_append
@[simp] theorem inIndex_pixWord : inIndex (0#1 ++ n) = n := BitVec.extractLsb'_append_eq_right

end

section
variable (r : RunLength) (c : Index)

/-- R62: `word = run << 3 | color`. -/
theorem busWord_eq_or : busWord r c = (r.setWidth 7 <<< 3) ||| c.setWidth 7 := by
  rw [← BitVec.setWidth_append_eq_shiftLeft_setWidth_or, BitVec.setWidth_eq, busWord]

@[simp] theorem busRun_busWord : busRun (busWord r c) = r := BitVec.extractLsb'_append_eq_left
@[simp] theorem busColor_busWord : busColor (busWord r c) = c := BitVec.extractLsb'_append_eq_right

end

end Sys2Proof

namespace Sys2Proof.Machine

section
variable (r : RunLength) (c : Index)

/-- R65: `b = 0x80 | (run << 3) | color`. -/
theorem rangeByte_eq_or : rangeByte r c = 0x80#8 ||| (r.setWidth 8 <<< 3) ||| c.setWidth 8 := by
  have tag : 0x80#8 = (1#1).setWidth 8 <<< (4 + 3) := by decide
  rw [tag, ← BitVec.setWidth_append_append_eq_shiftLeft_setWidth_or, BitVec.setWidth_eq, rangeByte]

@[simp] theorem byteTag_rangeByte : byteTag (rangeByte r c) = true :=
  BitVec.getLsbD_append.trans BitVec.getLsbD_append

@[simp] theorem byteRun_rangeByte : byteRun (rangeByte r c) = r :=
  (BitVec.extractLsb'_append_eq_of_le le_rfl).trans BitVec.extractLsb'_append_eq_right

@[simp] theorem byteColor_rangeByte : byteColor (rangeByte r c) = c := BitVec.extractLsb'_append_eq_right

end

section
variable (a : Index) (k : Bool) (b : Index)

/-- R66: `b = (c1 << 4) | (copy << 3) | c2`. -/
theorem colourByte_eq_or :
    colourByte a k b = (a.setWidth 8 <<< 4) ||| (if k then 0x08#8 else 0x00#8) ||| b.setWidth 8 := by
  have copy : (if k then 0x08#8 else 0x00#8) = (BitVec.ofBool k).setWidth 8 <<< 3 := by cases k <;> decide
  have tag : (0#1).setWidth 8 <<< (3 + 1 + 3) = 0#8 := by decide
  rw [copy, colourByte, ← BitVec.setWidth_eq (x := 0#1 ++ a ++ BitVec.ofBool k ++ b),
    BitVec.setWidth_append_append_append_eq_shiftLeft_setWidth_or, tag, BitVec.zero_or]

@[simp] theorem byteTag_colourByte : byteTag (colourByte a k b) = false :=
  BitVec.getLsbD_append.trans (BitVec.getLsbD_append.trans BitVec.getLsbD_append)

@[simp] theorem byteFirst_colourByte : byteFirst (colourByte a k b) = a :=
  (BitVec.extractLsb'_append_eq_of_le (by decide)).trans
    ((BitVec.extractLsb'_append_eq_of_le le_rfl).trans BitVec.extractLsb'_append_eq_right)

@[simp] theorem byteCopy_colourByte : byteCopy (colourByte a k b) = k := by
  have copyBit : byteCopy (colourByte a k b) = (BitVec.ofBool k).getLsbD 0 :=
    BitVec.getLsbD_append.trans BitVec.getLsbD_append
  rw [copyBit, BitVec.getLsbD_ofBool, decide_eq_true rfl, Bool.true_and]

@[simp] theorem byteSecond_colourByte : byteSecond (colourByte a k b) = b := BitVec.extractLsb'_append_eq_right

end

section
variable (b : Byte)

/-- A field of one bit is that bit. -/
theorem extractLsb'_one_eq_ofBool (i : Nat) : b.extractLsb' i 1 = BitVec.ofBool (b.getLsbD i) := by
  ext j hj
  obtain rfl : j = 0 := by omega
  simp

/-- Bits 7, 6:3 and 2:0 are all of a byte (R64). -/
theorem byte_eq_rangeFields : BitVec.ofBool (byteTag b) ++ byteRun b ++ byteColor b = b := by
  rw [byteTag, ← extractLsb'_one_eq_ofBool, byteRun, byteColor,
    BitVec.extractLsb'_append_extractLsb'_eq_extractLsb' (rfl : 7 = 3 + 4),
    BitVec.extractLsb'_append_extractLsb'_eq_extractLsb' (rfl : 3 = 0 + 3)]
  exact BitVec.extractLsb'_eq_self

/-- Bits 7, 6:4, 3 and 2:0 are all of a byte (R64). -/
theorem byte_eq_colourFields :
    BitVec.ofBool (byteTag b) ++ byteFirst b ++ BitVec.ofBool (byteCopy b) ++ byteSecond b = b := by
  rw [byteTag, byteCopy, ← extractLsb'_one_eq_ofBool, ← extractLsb'_one_eq_ofBool, byteFirst, byteSecond,
    BitVec.extractLsb'_append_extractLsb'_eq_extractLsb' (rfl : 7 = 4 + 3),
    BitVec.extractLsb'_append_extractLsb'_eq_extractLsb' (rfl : 4 = 3 + 1),
    BitVec.extractLsb'_append_extractLsb'_eq_extractLsb' (rfl : 3 = 0 + 3)]
  exact BitVec.extractLsb'_eq_self

variable {b}

theorem rangeByte_of_tag_set (h : byteTag b = true) : rangeByte (byteRun b) (byteColor b) = b := by
  have fields := byte_eq_rangeFields b
  rwa [h] at fields

theorem colourByte_of_tag_clear (h : byteTag b = false) :
    colourByte (byteFirst b) (byteCopy b) (byteSecond b) = b := by
  have fields := byte_eq_colourFields b
  rwa [h] at fields

end

/-- Settles O7: each layout read back field by field, and each byte made again of the fields its tag says it has. -/
theorem fieldsReadBack : Obligations.FieldsReadBack := by
  unfold Obligations.FieldsReadBack
  refine ⟨fun n => ⟨inFlag_pixWord n, inFlag_flushWord n, inIndex_pixWord n⟩,
    fun r c => ⟨busWord_eq_or r c, busRun_busWord r c, busColor_busWord r c,
      rangeByte_eq_or r c, byteTag_rangeByte r c, byteRun_rangeByte r c, byteColor_rangeByte r c⟩,
    fun a b k => ⟨colourByte_eq_or a k b, byteTag_colourByte a k b, byteFirst_colourByte a k b,
      byteCopy_colourByte a k b, byteSecond_colourByte a k b⟩, fun b => ?_⟩
  cases h : byteTag b
  case true => exact (rangeByte_of_tag_set h).symm
  case false => exact (colourByte_of_tag_clear h).symm

end Sys2Proof.Machine
end

section
/-! The compactor's decision (41_compactor.md R103 to R107): the byte and the window of each case, the case's own condition as the
premise, and the one equation for both micro-operations that pushes a range through it. -/

namespace Sys2Proof.Machine

section
variable {w : Window}

/-- Case 1 (R104). Its condition makes the oldest slot a singleton with a neighbour, so only R109's order keeps case 2 out. -/
theorem decide_of_alternates (h : w.alternates = true) :
    w.emitted = some (colourByte w.w0.color true w.w1.color) ∧ w.decided = .empty := by
  obtain ⟨-, emits⟩ | ⟨ha, -⟩ | ⟨ha, -⟩ | ⟨empty, -⟩ := decide_cases w
  · exact emits
  · exact absurd (ha.symm.trans h) Bool.false_ne_true
  · exact absurd (ha.symm.trans h) Bool.false_ne_true
  · exact absurd (((alternates_iff w).mp h).1.symm.trans empty) (by decide)

/-- Case 2 (R105). -/
theorem decide_of_singleton (ha : w.alternates ≠ true) (h0 : w.w0.run = 1) (h1 : w.w1.run ≠ 0) :
    w.emitted = some (colourByte w.w0.color false w.w1.color) ∧
      w.decided = { w with w0 := .empty, w1 := { w.w1 with run := w.w1.run - 1 } } := by
  obtain ⟨h, -⟩ | ⟨-, -, -, emits⟩ | ⟨-, -, lone, -⟩ | ⟨empty, -⟩ := decide_cases w
  · exact absurd h ha
  · exact emits
  · exact absurd (lone h0) h1
  · exact absurd (h0.symm.trans empty) (by decide)

/-- Case 3 (R106). That the oldest slot is no singleton with a neighbour keeps case 1 out too (R109). -/
theorem decide_of_plain (h0 : w.w0.run ≠ 0) (lone : w.w0.run = 1 → w.w1.run = 0) :
    w.emitted = some (rangeByte w.w0.run w.w0.color) ∧ w.decided = { w with w0 := .empty } := by
  obtain ⟨ha, -⟩ | ⟨-, one, h1, -⟩ | ⟨-, -, -, emits⟩ | ⟨empty, -⟩ := decide_cases w
  · obtain ⟨one, one', -⟩ := (alternates_iff w).mp ha
    exact absurd (one'.symm.trans (lone one)) (by decide)
  · exact absurd (lone one) h1
  · exact emits
  · exact absurd empty h0

/-- Case 4 (R107). -/
theorem decide_of_empty (h0 : w.w0.run = 0) : w.emitted = none ∧ w.decided = w := by
  obtain ⟨ha, -⟩ | ⟨-, one, -⟩ | ⟨-, h, -⟩ | ⟨-, quiet⟩ := decide_cases w
  · exact absurd (((alternates_iff w).mp ha).1.symm.trans h0) (by decide)
  · exact absurd (one.symm.trans h0) (by decide)
  · exact absurd h0 h
  · exact quiet

end

/-- R105 writes a slot that is not empty (R27) as one of run at least 1. -/
theorem one_le_run_iff {r : RunLength} : 1 ≤ r ↔ r ≠ 0 := BitVec.pos_iff_ne_zero r

/-- The slot case 2 takes one pixel from holds one, so its run does not wrap (R105). -/
theorem run_sub_one_toNat_add_one {r : RunLength} (h : 1 ≤ r) : (r - 1).toNat + 1 = r.toNat := by
  rw [BitVec.toNat_sub_of_le h]
  exact Nat.sub_add_cancel h

section
variable {i : Instr} {e : Range} (s : State)

/-- `CMP.RANGE` and `CMP.PH` are `cmp_step` of the range they push (R101, R102). -/
theorem exec_of_pushedRange (h : pushedRange i = some e) : exec i s = .next (cmpStep e s) := by
  cases i with
  | cmpPh c => cases h; exact exec_cmpPh s c
  | cmpRange r c => cases h; exact exec_cmpRange s r c
  | pix | flush | reset | segPix | segFlush => cases h

/-- What a micro-operation changes, from what the decision makes of the shifted window (R103). -/
theorem exec_of_decision {w : Window} {b : Option Byte} (h : pushedRange i = some e)
    (d : (s.win.shift e).emitted = b ∧ (s.win.shift e).decided = w) :
    exec i s = .next { s with win := w, outQ := s.outQ ++ b.toList, bus := none } := by
  obtain ⟨rfl, rfl⟩ := d
  exact exec_of_pushedRange s h

end

/-- Settles O16: the premises are case 1's condition on the shifted window. -/
theorem cmpAlternatingPair : Obligations.CmpAlternatingPair := by
  unfold Obligations.CmpAlternatingPair
  intro i e s h run0 run1 run2 run3 first second
  have ha := (alternates_iff (s.win.shift e)).mpr ⟨run0, run1, run2, run3, first, second⟩
  have d := decide_of_alternates ha
  rw [colourByte_eq_or, if_pos rfl] at d
  exact ⟨none, exec_of_decision s h d⟩

/-- Settles O17: the premises are case 2's condition on the shifted window, a run of at least 1 being one that is not 0. -/
theorem cmpSingletonAbsorption : Obligations.CmpSingletonAbsorption := by
  unfold Obligations.CmpSingletonAbsorption
  intro i e s h pair single neighbour
  have ha : (s.win.shift e).alternates ≠ true := mt (alternates_iff _).mp pair
  have d := decide_of_singleton ha single (one_le_run_iff.mp neighbour)
  rw [colourByte_eq_or, if_neg Bool.false_ne_true, BitVec.or_zero] at d
  exact ⟨⟨none, exec_of_decision s h d⟩, run_sub_one_toNat_add_one neighbour⟩

/-- Settles O18: the premises are case 3's condition on the shifted window. -/
theorem cmpPlainRange : Obligations.CmpPlainRange := by
  unfold Obligations.CmpPlainRange
  intro i e s h filled notPair
  have lone : s.win.w1.run = 1 → s.win.w2.run = 0 :=
    fun one => by_contra fun h2 => notPair ⟨one, one_le_run_iff.mpr h2⟩
  rw [← rangeByte_eq_or]
  exact ⟨none, exec_of_decision s h (decide_of_plain filled lone)⟩

/-- Settles O19: the premise is case 4's condition on the shifted window, and no byte is appended. -/
theorem cmpEmptySlot : Obligations.CmpEmptySlot := by
  unfold Obligations.CmpEmptySlot
  intro i e s h empty
  have step := exec_of_decision s h (decide_of_empty empty)
  rw [Option.toList_none, List.append_nil] at step
  exact ⟨none, step⟩

end Sys2Proof.Machine
end

section
/-! One input word through both stages (42_top_level.md R131, R133): the segmenter's answer in each of its ways (R80), its way's own
condition as the premise, what the compactor then does, and operations done one after another. -/

namespace Sys2Proof.Machine

section
variable {g : Segmenter} {x : InWord}

theorem seg_of_continues (same : x = g.prev) (below : g.count ≠ Config.runCap) :
    g.next x = { prev := x, count := g.count + 1 } ∧ g.out x = none := by
  have noBreak : ¬ (x ≠ g.prev ∨ g.count = Config.runCap) := not_or.mpr ⟨not_not.mpr same, below⟩
  obtain ⟨-, -, answer⟩ | ⟨h, -⟩ | ⟨h, -⟩ := seg_cases g x
  · exact answer
  · exact absurd h noBreak
  · exact absurd h noBreak

theorem seg_of_starts (quiet : g.prev = Config.sent) (hx : x ≠ Config.sent) :
    g.next x = { prev := x, count := 1 } ∧ g.out x = none := by
  obtain ⟨same, -⟩ | ⟨-, -, answer⟩ | ⟨-, pending, -⟩ := seg_cases g x
  · exact absurd (same.trans quiet) hx
  · exact answer
  · exact absurd quiet pending

theorem seg_of_ends (pending : g.prev ≠ Config.sent) (h : x ≠ g.prev ∨ g.count = Config.runCap) :
    g.next x = { prev := x, count := 1 } ∧ g.out x = some { run := g.count, color := g.color } := by
  obtain ⟨same, below, -⟩ | ⟨-, quiet, -⟩ | ⟨-, -, answer⟩ := seg_cases g x
  · exact absurd h (not_or.mpr ⟨not_not.mpr same, below⟩)
  · exact absurd quiet pending
  · exact answer

/-- A range comes out only of a pending run (R80, R87). -/
theorem out_of_prev_eq_sent (x : InWord) (quiet : g.prev = Config.sent) : g.out x = none := by
  obtain ⟨-, -, -, noRange⟩ | ⟨-, -, -, noRange⟩ | ⟨-, pending, -⟩ := seg_cases g x
  · exact noRange
  · exact noRange
  · exact absurd quiet pending

end

section
variable {x : InWord} {s : State} {g : Segmenter}

/-- Where no range comes out, the compactor does not step. -/
theorem takeBus_segStep_of_out_none (h : s.seg.out x = none) : takeBus (segStep x s) = segStep x s :=
  takeBus_none (by rw [segStep_bus, h, Option.map_none])

/-- A range that comes out is pushed in the same step (R132). -/
theorem takeBus_segStep_of_out_some {r : Range} (h : s.seg.out x = some r) :
    takeBus (segStep x s) = cmpStep r (segStep x s) :=
  takeBus_some (by rw [segStep_bus, h, Option.map_some])

theorem exec_pix_of_no_range {n : Index} (h : s.seg.next (segWord n) = g ∧ s.seg.out (segWord n) = none) :
    exec (.pix n) s = .next { s with seg := g, bus := none } := by
  obtain ⟨rfl, out⟩ := h
  rw [exec_pix, takeBus_segStep_of_out_none out, segStep, out]
  rfl

/-- The compactor's step does not read the bus, so it answers the same with the segmenter's registers alone updated. -/
theorem exec_pix_of_range {n : Index} {r : Range}
    (h : s.seg.next (segWord n) = g ∧ s.seg.out (segWord n) = some r) :
    exec (.pix n) s = .next (cmpStep r { s with seg := g }) := by
  obtain ⟨rfl, out⟩ := h
  rw [exec_pix, takeBus_segStep_of_out_some out]
  rfl

end

section
variable {i : Instr} {is : List Instr} {s t : State}

theorem execAll_cons (h : exec i s = .next t) : execAll (i :: is) s = execAll is t := by
  rw [execAll, h]

theorem execAll_append (h : execAll is s = .next t) (js : List Instr) : execAll (is ++ js) s = execAll js t := by
  induction is generalizing s with
  | nil => cases h; rfl
  | cons i is ih =>
    cases hi : exec i s with
    | next u =>
      rw [execAll_cons hi] at h
      rw [List.cons_append, execAll_cons hi, ih h]
    | fault | refused => rw [execAll, hi] at h; cases h

/-- `CMP.PH` with colour 0 is `cmp_step(EMPTY)` (R102), so a run of them is R133's repetition. -/
theorem execAll_replicate_cmpPh (k : Nat) (s : State) :
    execAll (List.replicate k (.cmpPh 0)) s = .next (pushPlaceholders k s) := by
  induction k generalizing s with
  | zero => rfl
  | succ k ih => rw [List.replicate_succ, execAll_cons (exec_cmpPh s 0), ih]; rfl

/-- The first two lines of R133's pseudocode, as micro-operations. -/
theorem execAll_segFlush_push (s : State) :
    execAll ([.segFlush] ++ (if s.seg.prev ≠ Config.sent then [.cmpRange s.seg.count s.seg.color] else [])) s =
      .next (takeBus (segStep Config.sent s)) := by
  rw [List.singleton_append, execAll_cons (exec_segFlush s)]
  by_cases quiet : s.seg.prev = Config.sent
  · rw [if_neg (not_not.mpr quiet), takeBus_segStep_of_out_none (out_of_prev_eq_sent _ quiet), execAll]
  · obtain ⟨-, out⟩ := seg_of_ends quiet (.inl (Ne.symm quiet))
    rw [if_pos quiet, takeBus_segStep_of_out_some out, execAll_cons (exec_cmpRange _ _ _), execAll]

end

/-- Settles O23: the three clauses are the segmenter's three ways on the word of an index, which is never `SENT` (R90). -/
theorem pixDoesBothStages : Obligations.PixDoesBothStages := by
  unfold Obligations.PixDoesBothStages
  intro n s
  refine ⟨?decodes, ?goesOn, ?starts, ?ends⟩
  case decodes => rw [decodeIn_of_flag_clear (inFlag_pixWord n), inIndex_pixWord]
  case goesOn => exact fun same below => ⟨none, exec_pix_of_no_range (seg_of_continues same below)⟩
  case starts => exact fun quiet => ⟨none, exec_pix_of_no_range (seg_of_starts quiet (segWord_ne_sent n))⟩
  case ends => exact fun pending h => ⟨_, exec_cmpRange _ _ _, exec_pix_of_range (seg_of_ends pending h)⟩

/-- Settles O24: the marker and the push of its range leave what both stages do on `SENT`, and the placeholders follow. -/
theorem flushDoesItsMicroSteps : Obligations.FlushDoesItsMicroSteps := by
  unfold Obligations.FlushDoesItsMicroSteps
  intro low s
  have placeholders := execAll_replicate_cmpPh 4 (takeBus (segStep Config.sent s))
  exact ⟨decodeIn_of_flag_set (inFlag_flushWord low), _, exec_flush s,
    (execAll_append (execAll_segFlush_push s) _).trans placeholders⟩

end Sys2Proof.Machine
end

section
/-! What each kind of output byte expands to (45_reference_decoder.md R150), by the fields its layout reads back. -/

namespace Sys2Proof.Machine

@[simp] theorem expand_rangeByte (r : RunLength) (c : Index) : expand (rangeByte r c) = List.replicate r.toNat c := by
  rw [expand, if_pos (byteTag_rangeByte r c), byteRun_rangeByte, byteColor_rangeByte]

/-- Both kinds of colour byte at once: only the copy flag tells them apart. -/
theorem expand_colourByte (a : Index) (k : Bool) (b : Index) :
    expand (colourByte a k b) = if k then [a, b, a, b] else [a, b] := by
  rw [expand, byteTag_colourByte, if_neg Bool.false_ne_true, byteCopy_colourByte, byteFirst_colourByte, byteSecond_colourByte]

@[simp] theorem expand_pairByte (a b : Index) : expand (colourByte a false b) = [a, b] := expand_colourByte a false b

@[simp] theorem expand_patternByte (a b : Index) : expand (colourByte a true b) = [a, b, a, b] := expand_colourByte a true b

/-- Settles O8: the tag and the copy flag each byte was made with select its case of `expand`. -/
theorem bytesExpand : Obligations.BytesExpand := by
  unfold Obligations.BytesExpand
  exact ⟨expand_rangeByte, fun a b => ⟨expand_pairByte a b, expand_patternByte a b⟩⟩

end Sys2Proof.Machine
end

section
/-! Decoding at an operation's own level the byte its encoder writes (30_encoding.md R60 to R63, R68, R71). The byte is the word
with zeros above it, so the width test passes and the word comes back whole. -/

namespace Sys2Proof

/-! ### The words in an encoded byte -/

/-- The 4-bit word of a pixel's byte. -/
@[simp] theorem inWord_pixByte (n : Index) : (0#5 ++ n : Byte).extractLsb' 0 4 = 0#1 ++ n := by
  revert n; decide

/-- The 7-bit word of a placeholder's byte is a bus word of run 0. -/
@[simp] theorem busWord_phByte (c : Index) : (0#5 ++ c : Byte).extractLsb' 0 7 = busWord 0 c := by
  revert c; decide

/-- The 7-bit word of a range's byte is its bus word. -/
@[simp] theorem busWord_rangeByte (r : RunLength) (c : Index) : (0#1 ++ busWord r c : Byte).extractLsb' 0 7 = busWord r c :=
  BitVec.extractLsb'_append_eq_right

theorem decodeIn_pixWord (n : Index) : decodeIn (0#1 ++ n) = .pix n := by
  rw [decodeIn_of_flag_clear (inFlag_pixWord n), inIndex_pixWord]

theorem decodeSeg_pixWord (n : Index) : decodeSeg (0#1 ++ n) = .segPix n := by
  rw [decodeSeg_of_flag_clear (inFlag_pixWord n), inIndex_pixWord]

theorem decodeBus_phWord (c : Index) : decodeBus (busWord 0 c) = .cmpPh c := by
  rw [decodeBus_of_run_zero (busRun_busWord 0 c), busColor_busWord]

theorem decodeBus_rangeWord {r : RunLength} (c : Index) (h : r ≠ 0) : decodeBus (busWord r c) = .cmpRange r c := by
  rw [decodeBus_of_run_ne_zero (by rwa [busRun_busWord]), busRun_busWord, busColor_busWord]

/-! ### What each decoder makes of an encoded operation -/

/-- On the `in` port an operation's word selects it. -/
theorem decodeIn_encode {i : Instr} (h : i.level = .inPort) : decodeIn ((encode i).extractLsb' 0 4) = i := by
  cases i with
  | pix n => rw [encode, inWord_pixByte, decodeIn_pixWord]
  | flush => decide
  | reset | segPix | segFlush | cmpPh | cmpRange => cases h

/-- In the segmenter alone likewise. -/
theorem decodeSeg_encode {i : Instr} (h : i.level = .segmenter) : decodeSeg ((encode i).extractLsb' 0 4) = i := by
  cases i with
  | segPix n => rw [encode, inWord_pixByte, decodeSeg_pixWord]
  | segFlush => decide
  | pix | flush | reset | cmpPh | cmpRange => cases h

/-- In the compactor alone likewise, but for `CMP.RANGE` of run 0, whose word is a placeholder's (R63). -/
theorem decodeBus_encode {i : Instr} (h : i.level = .compactor) (wf : i.wellFormed = true) :
    decodeBus ((encode i).extractLsb' 0 7) = i := by
  cases i with
  | cmpPh c => rw [encode, busWord_phByte, decodeBus_phWord]
  | cmpRange r c => rw [encode, busWord_rangeByte, decodeBus_rangeWord c (by simpa [Instr.wellFormed] using wf)]
  | pix | flush | reset | segPix | segFlush => cases h

/-- An operation's byte holds nothing above its level's word (`Laws.EncodeFits`, for every operation). -/
theorem encode_fits (i : Instr) : (encode i).toNat < 2 ^ i.level.width := by
  cases i with
  | pix n => exact Laws.EncodeFits.pix n
  | flush => exact Laws.EncodeFits.flush
  | reset => exact Laws.EncodeFits.reset
  | segPix n => exact Laws.EncodeFits.segPix n
  | segFlush => exact Laws.EncodeFits.segFlush
  | cmpPh c => exact Laws.EncodeFits.cmpPh c
  | cmpRange r c => exact Laws.EncodeFits.cmpRange r c

theorem eq_reset_of_level {i : Instr} (h : i.level = .rstPin) : i = .reset := by
  cases i with
  | reset => rfl
  | pix | flush | segPix | segFlush | cmpPh | cmpRange => cases h

/-- One byte at an operation's own level. -/
theorem decodeByte_encode {i : Instr} (wf : i.wellFormed = true) : decodeByte i.level (encode i) = .ok i := by
  rw [decodeByte.eq_def, if_pos (encode_fits i)]
  cases h : i.level with
  | inPort => exact congrArg _ (decodeIn_encode h)
  | rstPin => rw [eq_reset_of_level h]; rfl
  | segmenter => exact congrArg _ (decodeSeg_encode h)
  | compactor => exact congrArg _ (decodeBus_encode h wf)

/-- Settles O5: the one byte an operation's encoder writes is read back, and the list after it is not looked at. -/
theorem decodeUndoesEncode : Obligations.DecodeUndoesEncode := by
  unfold Obligations.DecodeUndoesEncode
  intro i rest wf
  rw [decode, decodeByte_encode wf]

/-- Settles O4: fourteen closed words, each evaluated. -/
theorem specWordsDecode : Obligations.SpecWordsDecode := by
  unfold Obligations.SpecWordsDecode
  and_intros <;> decide

end Sys2Proof
end

section
/-! The segmenter's micro-operations alone (40_segmenter.md sections 2 and 3), and the pixels a segmenter step conserves. -/

namespace Sys2Proof.Machine

section
variable {g h : Segmenter} {r : Option Range} {x : InWord} (s : State)

/-- A segmenter micro-step, from the segmenter's answer. -/
theorem segStep_of_answer {s : State} (answer : s.seg.next x = h ∧ s.seg.out x = r) :
    segStep x s = { s with seg := h, bus := r.map Range.toBus } := by
  obtain ⟨rfl, rfl⟩ := answer
  rfl

/-- With nothing pending the marker only counts, from 15 back to 1 (R80, R88). -/
theorem seg_flush_of_quiet (quiet : g.prev = Config.sent) :
    g.next Config.sent = { prev := Config.sent, count := if g.count = Config.runCap then 1 else g.count + 1 } ∧
      g.out Config.sent = none := by
  refine ⟨?_, out_of_prev_eq_sent _ quiet⟩
  by_cases cap : g.count = Config.runCap
  · have hb : g.breaks Config.sent = true := (breaks_iff _ _).mpr (.inr cap)
    rw [Segmenter.next, if_pos hb, if_pos cap]
  · rw [(seg_of_continues quiet.symm cap).1, if_neg cap]

end

/-- Settles O9: the pending run comes out where there is one and the step breaks it; a break with none pending starts a run. -/
theorem segPixDoesSegStep : Obligations.SegPixDoesSegStep := by
  unfold Obligations.SegPixDoesSegStep
  intro n s
  refine ⟨decodeSeg_pixWord n, (exec_segPix s n).trans (congrArg _ ?_)⟩
  by_cases breaks : n.setWidth 4 ≠ s.seg.prev ∨ s.seg.count = 15
  · by_cases quiet : s.seg.prev = 0b1000
    · rw [segStep_of_answer (seg_of_starts (x := segWord n) quiet (segWord_ne_sent n)), if_pos breaks, if_neg (not_not.mpr quiet)]
      rfl
    · rw [segStep_of_answer (seg_of_ends (x := segWord n) quiet breaks), if_pos breaks, if_pos quiet]
      rfl
  · obtain ⟨same, below⟩ := not_or.mp breaks
    rw [segStep_of_answer (seg_of_continues (x := segWord n) (not_not.mp same) below), if_neg breaks]
    rfl

/-- Settles O10: the marker is the word of no pending run, so it ends every run there is. -/
theorem segFlushDoesSegStep : Obligations.SegFlushDoesSegStep := by
  unfold Obligations.SegFlushDoesSegStep
  intro low s
  refine ⟨decodeSeg_of_flag_set (inFlag_flushWord low), (exec_segFlush s).trans (congrArg _ ?_)⟩
  by_cases quiet : s.seg.prev = 0b1000
  · rw [segStep_of_answer (seg_flush_of_quiet quiet), if_neg (not_not.mpr quiet)]
    rfl
  · rw [segStep_of_answer (seg_of_ends (x := Config.sent) quiet (.inl (Ne.symm quiet))), if_pos quiet]
    rfl

/-- Settles O11: with the marker's own word held and the cap not reached, `seg_step` goes on counting. -/
theorem segFlushWithNothingPendingCounts : Obligations.SegFlushWithNothingPendingCounts := by
  unfold Obligations.SegFlushWithNothingPendingCounts
  intro s quiet below
  rw [exec_segFlush, segStep_of_answer (seg_of_continues (x := Config.sent) (Eq.symm quiet) below)]
  rfl

/-! ### The count's range (R83, R86) -/

/-- Below the cap the count goes up without wrapping. -/
theorem count_add_one_toNat {c : RunLength} (below : c ≠ Config.runCap) : (c + 1).toNat = c.toNat + 1 := by
  have h : c.toNat ≠ 15 := fun h => below (BitVec.eq_of_toNat_eq h)
  rw [BitVec.toNat_add, Nat.mod_eq_of_lt]
  · rfl
  · have := c.isLt
    change c.toNat + 1 < 16
    omega

theorem count_add_one_ne_zero {c : RunLength} (below : c ≠ Config.runCap) : c + 1 ≠ 0 := fun zero => by
  have up := count_add_one_toNat below
  rw [zero] at up
  exact absurd up.symm (Nat.succ_ne_zero _)

theorem next_count (g : Segmenter) (x : InWord) :
    (g.next x).count = 1 ∨ (g.next x).count.toNat = g.count.toNat + 1 := by
  obtain ⟨-, below, next, -⟩ | ⟨-, -, next, -⟩ | ⟨-, -, next, -⟩ := seg_cases g x
  · exact .inr (by rw [next]; exact count_add_one_toNat below)
  · exact .inl (by rw [next])
  · exact .inl (by rw [next])

theorem next_count_ne_zero (g : Segmenter) (x : InWord) : (g.next x).count ≠ 0 := by
  rintro zero
  obtain one | up := next_count g x
  · exact absurd (one.symm.trans zero) (by decide)
  · rw [zero] at up
    exact absurd up.symm (Nat.succ_ne_zero _)

/-- The range that comes out is the pending run. -/
theorem eq_of_out_eq_some {g : Segmenter} {x : InWord} {r : Range} (h : g.out x = some r) :
    g.prev ≠ Config.sent ∧ (x ≠ g.prev ∨ g.count = Config.runCap) ∧ r = { run := g.count, color := g.color } := by
  obtain ⟨-, -, -, out⟩ | ⟨-, -, -, out⟩ | ⟨breaks, pending, -, out⟩ := seg_cases g x
  · cases out.symm.trans h
  · cases out.symm.trans h
  · exact ⟨pending, breaks, (Option.some.inj (out.symm.trans h)).symm⟩

/-- A segmenter micro-operation is a segmenter step on some word (R81, R82). -/
theorem exec_of_segmenter {i : Instr} (s : State) (h : i = .segFlush ∨ ∃ n, i = .segPix n) :
    ∃ x, exec i s = .next (segStep x s) := by
  obtain rfl | ⟨n, rfl⟩ := h
  · exact ⟨_, exec_segFlush s⟩
  · exact ⟨_, exec_segPix s n⟩

/-- Settles O12: the count of the range on the bus is the count the state had. -/
theorem segCountStaysInRange : Obligations.SegCountStaysInRange := by
  unfold Obligations.SegCountStaysInRange
  intro i s h pos
  obtain ⟨x, run⟩ := exec_of_segmenter s h
  refine ⟨_, run, next_count s.seg x, fun w onBus => ?_⟩
  rw [segStep_bus] at onBus
  obtain ⟨r, out, rfl⟩ := Option.map_eq_some_iff.mp onBus
  obtain ⟨-, -, rfl⟩ := eq_of_out_eq_some out
  rwa [Range.toBus, busRun_busWord]

/-! ### The pixels of a word -/

@[simp] theorem inFlag_segWord (n : Index) : inFlag (segWord n) = false := by revert n; decide
@[simp] theorem inFlag_sent : inFlag Config.sent = true := by decide
@[simp] theorem inIndex_segWord (n : Index) : inIndex (segWord n) = n := by revert n; decide

/-- A normalised word is an index's word or the marker (R61). -/
theorem normalise_cases (w : InWord) :
    (inFlag w = true ∧ normalise w = Config.sent) ∨ (inFlag w = false ∧ normalise w = segWord (inIndex w)) := by
  revert w; decide

@[simp] theorem pixelsOf_nil : pixelsOf [] = [] := rfl

@[simp] theorem pixelsOf_append (ws vs : List InWord) : pixelsOf (ws ++ vs) = pixelsOf ws ++ pixelsOf vs :=
  List.filterMap_append

@[simp] theorem pixelsOf_segWord (n : Index) : pixelsOf [segWord n] = [n] := by simp [pixelsOf]
@[simp] theorem pixelsOf_sent : pixelsOf [Config.sent] = [] := by simp [pixelsOf]

@[simp] theorem pixelsOf_normalise (w : InWord) : pixelsOf [normalise w] = pixelsOf [w] := by
  obtain ⟨flag, norm⟩ | ⟨flag, norm⟩ := normalise_cases w
  · rw [norm, pixelsOf_sent]; simp [pixelsOf, flag]
  · rw [norm, pixelsOf_segWord]; simp [pixelsOf, flag]

/-! ### Pixel conservation in the segmenter (R84) -/

theorem pixels_of_quiet {g : Segmenter} (quiet : g.prev = Config.sent) : g.pixels = [] := if_pos quiet

theorem pixels_of_pending {g : Segmenter} (pending : g.prev ≠ Config.sent) :
    g.pixels = List.replicate g.count.toNat g.color := if_neg pending

/-- A run that has just started holds its word's one pixel, and none if the word is the marker. -/
theorem pixels_of_started (w : InWord) : Segmenter.pixels { prev := normalise w, count := 1 } = pixelsOf [w] := by
  rw [← pixelsOf_normalise]
  obtain ⟨-, norm⟩ | ⟨-, norm⟩ := normalise_cases w
  · rw [norm, pixels_of_quiet rfl, pixelsOf_sent]
  · rw [norm, pixels_of_pending (segWord_ne_sent _), color_segWord, pixelsOf_segWord]
    rfl

/-- The range that comes out and the run then pending are the run that was pending and the new pixel, in order. -/
theorem seg_conserves_pixels (g : Segmenter) (w : InWord) :
    (g.out (normalise w)).toList.flatMap Range.pixels ++ (g.next (normalise w)).pixels = g.pixels ++ pixelsOf [w] := by
  obtain ⟨same, below, next, out⟩ | ⟨-, quiet, next, out⟩ | ⟨-, pending, next, out⟩ := seg_cases g (normalise w)
  · rw [next, out, Option.toList_none, List.flatMap_nil, List.nil_append, ← pixelsOf_normalise]
    obtain ⟨-, norm⟩ | ⟨-, norm⟩ := normalise_cases w
    · rw [norm] at same ⊢
      rw [pixels_of_quiet rfl, pixels_of_quiet same.symm, pixelsOf_sent, List.append_nil]
    · rw [norm] at same ⊢
      have pending : g.prev ≠ Config.sent := same ▸ segWord_ne_sent _
      have color : g.color = inIndex w := by rw [Segmenter.color, ← same]; exact color_segWord (inIndex w) 0
      rw [pixels_of_pending (segWord_ne_sent _), pixels_of_pending pending, color_segWord, color, pixelsOf_segWord,
        count_add_one_toNat below, List.replicate_succ']
  · rw [next, out, Option.toList_none, List.flatMap_nil, pixels_of_quiet quiet, pixels_of_started]
  · rw [next, out, Option.toList_some, List.flatMap_singleton, pixels_of_pending pending, pixels_of_started]
    rfl

end Sys2Proof.Machine
end

section
/-! The compactor's window under a list of ranges pushed one after another (41_compactor.md section 4): what each push does to the
slots, the bytes a list of pushes emits, and that they cover exactly the pixels removed. -/

namespace Sys2Proof.Machine

/-! ### Pushing ranges -/

/-- The window after `cmp_step(e)` (R103). -/
def Window.push (w : Window) (e : Range) : Window := (w.shift e).decided

/-- The window after pushing ranges in order. -/
def Window.pushAll (w : Window) (rs : List Range) : Window := rs.foldl Window.push w

/-- The bytes emitted while ranges are pushed in order. -/
def Window.bytes : Window → List Range → List Byte
  | _, [] => []
  | w, e :: rs => (w.shift e).emitted.toList ++ (w.push e).bytes rs

/-- What pushing ranges in order does to the state: the window and `out_q`, and the bus is clear. -/
def pushRanges (rs : List Range) (s : State) : State :=
  { s with win := s.win.pushAll rs, outQ := s.outQ ++ s.win.bytes rs, bus := none }

section
variable (w : Window) (e : Range) (rs qs : List Range) (s : State)

@[simp] theorem Window.pushAll_nil : w.pushAll [] = w := rfl
@[simp] theorem Window.pushAll_cons : w.pushAll (e :: rs) = (w.push e).pushAll rs := rfl
@[simp] theorem Window.bytes_nil : w.bytes [] = [] := rfl

theorem Window.bytes_cons : w.bytes (e :: rs) = (w.shift e).emitted.toList ++ (w.push e).bytes rs := rfl

@[simp] theorem Window.bytes_singleton : w.bytes [e] = (w.shift e).emitted.toList := List.append_nil _

theorem Window.pushAll_append : w.pushAll (rs ++ qs) = (w.pushAll rs).pushAll qs := List.foldl_append

theorem Window.bytes_append : w.bytes (rs ++ qs) = w.bytes rs ++ (w.pushAll rs).bytes qs := by
  induction rs generalizing w with
  | nil => rfl
  | cons e rs ih => rw [List.cons_append, bytes_cons, bytes_cons, ih, pushAll_cons, List.append_assoc]

@[simp] theorem pushRanges_win : (pushRanges rs s).win = s.win.pushAll rs := rfl

theorem pushRanges_nil {s : State} (clear : s.bus = none) : pushRanges [] s = s := by
  rw [pushRanges, Window.pushAll_nil, Window.bytes_nil, List.append_nil, ← clear]

/-- One `cmp_step` is the push of one range. -/
theorem cmpStep_eq_pushRanges : cmpStep e s = pushRanges [e] s := by
  rw [pushRanges, Window.bytes_singleton]
  rfl

theorem pushRanges_append : pushRanges (rs ++ qs) s = pushRanges qs (pushRanges rs s) := by
  rw [pushRanges, Window.pushAll_append, Window.bytes_append, ← List.append_assoc]
  rfl

theorem pushRanges_cons : pushRanges (e :: rs) s = pushRanges rs (cmpStep e s) := by
  rw [cmpStep_eq_pushRanges, ← pushRanges_append, List.singleton_append]

/-- R133's placeholders are pushes of `EMPTY`; the first of them clears the bus. -/
theorem pushPlaceholders_eq_pushRanges (n : Nat) :
    pushPlaceholders (n + 1) s = pushRanges (List.replicate (n + 1) .empty) s := by
  induction n generalizing s with
  | zero => exact cmpStep_eq_pushRanges .empty s
  | succ n ih => rw [pushPlaceholders_succ, ih, List.replicate_succ (n := n + 1), pushRanges_cons]

/-- `CMP.RANGE` and `CMP.PH` done one after another push their ranges. -/
theorem execAll_pushOps {is : List Instr} {rs : List Range} (h : is.map pushedRange = rs.map some) {s : State}
    (clear : s.bus = none) : execAll is s = .next (pushRanges rs s) := by
  induction rs generalizing is s with
  | nil => rw [List.map_eq_nil_iff.mp h, pushRanges_nil clear]; rfl
  | cons e rs ih =>
    obtain ⟨i, is, rfl, pushes, h⟩ := List.map_eq_cons_iff.mp h
    rw [execAll_cons (exec_of_pushedRange s pushes), ih h (cmpStep_bus e s), pushRanges_cons]

end

/-! ### A decision, slot by slot -/

section
variable (w : Window)

/-- `w[0]` is empty after every decision (R113). -/
@[simp] theorem decided_w0_run : w.decided.w0.run = 0 := by
  obtain ⟨-, -, h⟩ | ⟨-, -, -, -, h⟩ | ⟨-, -, -, -, h⟩ | ⟨h0, -, h⟩ := decide_cases w
  · rw [h]; rfl
  · rw [h]; rfl
  · rw [h]; rfl
  · rw [h, h0]

/-- `w[1]` is emptied by case 1, loses one pixel in case 2, and stays otherwise. -/
theorem decided_w1 : w.decided.w1 = .empty ∨
    (w.w1.run ≠ 0 ∧ w.decided.w1 = { w.w1 with run := w.w1.run - 1 }) ∨ w.decided.w1 = w.w1 := by
  obtain ⟨-, -, h⟩ | ⟨-, -, h1, -, h⟩ | ⟨-, -, -, -, h⟩ | ⟨-, -, h⟩ := decide_cases w
  · exact .inl (by rw [h]; rfl)
  · exact .inr (.inl ⟨h1, by rw [h]⟩)
  · exact .inr (.inr (by rw [h]))
  · exact .inr (.inr (by rw [h]))

/-- Only case 1 touches the newer two slots. -/
theorem decided_newer : (w.decided.w2 = .empty ∧ w.decided.w3 = .empty) ∨ (w.decided.w2 = w.w2 ∧ w.decided.w3 = w.w3) := by
  obtain ⟨-, -, h⟩ | ⟨-, -, -, -, h⟩ | ⟨-, -, -, -, h⟩ | ⟨-, -, h⟩ := decide_cases w
  · exact .inl (by rw [h]; exact ⟨rfl, rfl⟩)
  · exact .inr (by rw [h]; exact ⟨rfl, rfl⟩)
  · exact .inr (by rw [h]; exact ⟨rfl, rfl⟩)
  · exact .inr (by rw [h]; exact ⟨rfl, rfl⟩)

variable {w}

theorem decided_w1_of_empty (h : w.w1 = .empty) : w.decided.w1 = .empty := by
  obtain emptied | ⟨filled, -⟩ | same := decided_w1 w
  · exact emptied
  · exact absurd (congrArg Range.run h) filled
  · exact same.trans h

theorem decided_w2_of_empty (h : w.w2 = .empty) : w.decided.w2 = .empty := by
  obtain ⟨emptied, -⟩ | ⟨same, -⟩ := decided_newer w
  · exact emptied
  · exact same.trans h

theorem decided_w3_of_empty (h : w.w3 = .empty) : w.decided.w3 = .empty := by
  obtain ⟨-, emptied⟩ | ⟨-, same⟩ := decided_newer w
  · exact emptied
  · exact same.trans h

end

/-! ### Draining the window (R111) -/

section
variable (w : Window) (e : Range)

@[simp] theorem push_w0_run : (w.push e).w0.run = 0 := decided_w0_run _

theorem pushAll_w0_run {w : Window} (h : w.w0.run = 0) (rs : List Range) : (w.pushAll rs).w0.run = 0 := by
  induction rs generalizing w with
  | nil => exact h
  | cons e rs ih => exact ih (push_w0_run w e)

theorem push_empty_w3 : (w.push .empty).w3 = .empty := decided_w3_of_empty rfl

/-- Three placeholders reach every slot but `w[0]`, which no decision leaves filled. -/
theorem newer_slots_after_three_placeholders :
    (w.pushAll (List.replicate 3 .empty)).w1 = .empty ∧ (w.pushAll (List.replicate 3 .empty)).w2 = .empty ∧
      (w.pushAll (List.replicate 3 .empty)).w3 = .empty := by
  have second : ((w.push .empty).push .empty).w2 = .empty := decided_w2_of_empty (push_empty_w3 w)
  exact ⟨decided_w1_of_empty second, decided_w2_of_empty (push_empty_w3 _), push_empty_w3 _⟩

/-- A placeholder pushed behind empty slots emits nothing and leaves the reset window. -/
theorem push_empty_of_newer_empty {w : Window} (h1 : w.w1 = .empty) (h2 : w.w2 = .empty) (h3 : w.w3 = .empty) :
    (w.shift .empty).emitted = none ∧ w.push .empty = .empty := by
  have shifted : w.shift .empty = .empty := by rw [Window.shift, h1, h2, h3]; rfl
  rw [Window.push, shifted]
  exact decide_of_empty rfl

theorem fourth_placeholder :
    ((w.pushAll (List.replicate 3 .empty)).shift .empty).emitted = none ∧
      (w.pushAll (List.replicate 3 .empty)).push .empty = .empty := by
  obtain ⟨h1, h2, h3⟩ := newer_slots_after_three_placeholders w
  exact push_empty_of_newer_empty h1 h2 h3

/-- Four placeholders leave the reset window. -/
@[simp] theorem pushAll_four_placeholders : w.pushAll (List.replicate 4 .empty) = .empty := (fourth_placeholder w).2

/-- The bytes of four placeholders are those of the first three. -/
theorem bytes_four_placeholders : w.bytes (List.replicate 4 .empty) = w.bytes (List.replicate 3 .empty) := by
  have split : List.replicate 4 Range.empty = List.replicate 3 .empty ++ [.empty] := rfl
  rw [split, Window.bytes_append, Window.bytes_singleton, (fourth_placeholder w).1, Option.toList_none, List.append_nil]

end

/-- Settles O21: the states are those the pushes of three and of one more `EMPTY` leave. -/
theorem fourPlaceholdersDrain : Obligations.FourPlaceholdersDrain := by
  unfold Obligations.FourPlaceholdersDrain
  intro s
  have three : execAll (List.replicate 3 (.cmpPh 0)) s = .next (pushRanges (List.replicate 3 .empty) s) := by
    rw [execAll_replicate_cmpPh, pushPlaceholders_eq_pushRanges]
  obtain ⟨h1, h2, h3⟩ := newer_slots_after_three_placeholders s.win
  obtain ⟨quiet, drained⟩ := fourth_placeholder s.win
  refine ⟨_, _, three, exec_cmpPh _ 0, push_w0_run _ _, congrArg _ h1, congrArg _ h2, congrArg _ h3, ?_, drained, rfl⟩
  exact (congrArg (_ ++ Option.toList ·) quiet).trans (List.append_nil _)

/-! ### Pixels (R110, R114) -/

@[simp] theorem decodeBytes_append (bs cs : List Byte) : decodeBytes (bs ++ cs) = decodeBytes bs ++ decodeBytes cs :=
  List.flatMap_append

@[simp] theorem decodeBytes_singleton (b : Byte) : decodeBytes [b] = expand b := List.flatMap_singleton ..

theorem pixels_of_run_zero {r : Range} (h : r.run = 0) : r.pixels = [] := by rw [Range.pixels, h]; rfl

theorem pixels_of_run_one {r : Range} (h : r.run = 1) : r.pixels = [r.color] := by rw [Range.pixels, h]; rfl

/-- A slot that is not empty holds one pixel of its colour and those left when case 2 has taken it. -/
theorem pixels_of_run_ne_zero {r : Range} (h : r.run ≠ 0) :
    r.pixels = r.color :: Range.pixels { r with run := r.run - 1 } := by
  rw [Range.pixels, Range.pixels, ← run_sub_one_toNat_add_one (one_le_run_iff.mpr h), List.replicate_succ]

@[simp] theorem Window.empty_pixels : Window.empty.pixels = [] := rfl

/-- The byte's pixels, then those of the window after the decision, are the window's before it, in each of the four cases. -/
theorem decision_conserves_pixels (w : Window) : decodeBytes w.emitted.toList ++ w.decided.pixels = w.pixels := by
  obtain ⟨ha, emits, h⟩ | ⟨-, one, filled, emits, h⟩ | ⟨-, -, -, emits, h⟩ | ⟨-, emits, h⟩ := decide_cases w
  · obtain ⟨r0, r1, r2, r3, first, second⟩ := (alternates_iff w).mp ha
    rw [emits, h, Option.toList_some, decodeBytes_singleton, expand_patternByte, Window.empty_pixels, Window.pixels,
      pixels_of_run_one r0, pixels_of_run_one r1, pixels_of_run_one r2, pixels_of_run_one r3, first, second]
    rfl
  · rw [emits, h, Option.toList_some, decodeBytes_singleton, expand_pairByte]
    simp [Window.pixels, pixels_of_run_one one, pixels_of_run_ne_zero filled, pixels_of_run_zero (r := .empty) rfl]
  · rw [emits, h, Option.toList_some, decodeBytes_singleton, expand_rangeByte]
    simp [Window.pixels, Range.pixels, Range.empty]
  · rw [emits, h]
    rfl

/-- One push: the oldest slot is shifted out, so it has to be empty for no pixel to be lost. -/
theorem push_conserves_pixels (w : Window) (e : Range) :
    decodeBytes (w.shift e).emitted.toList ++ (w.push e).pixels =
      w.w1.pixels ++ w.w2.pixels ++ w.w3.pixels ++ e.pixels := decision_conserves_pixels _

theorem pixels_of_oldest_empty {w : Window} (h : w.w0.run = 0) :
    w.pixels = w.w1.pixels ++ w.w2.pixels ++ w.w3.pixels := by
  rw [Window.pixels, pixels_of_run_zero h, List.nil_append]

/-- Any list of pushes: the bytes' pixels, then the window's, are the window's before and those of the ranges. -/
theorem pushAll_conserves_pixels {w : Window} (h : w.w0.run = 0) (rs : List Range) :
    decodeBytes (w.bytes rs) ++ (w.pushAll rs).pixels = w.pixels ++ rs.flatMap Range.pixels := by
  induction rs generalizing w with
  | nil => rw [Window.bytes_nil, Window.pushAll_nil, List.flatMap_nil, List.append_nil]; rfl
  | cons e rs ih =>
    calc decodeBytes (w.bytes (e :: rs)) ++ (w.pushAll (e :: rs)).pixels
        = decodeBytes (w.shift e).emitted.toList ++
            (decodeBytes ((w.push e).bytes rs) ++ ((w.push e).pushAll rs).pixels) := by
          rw [Window.bytes_cons, decodeBytes_append, List.append_assoc, Window.pushAll_cons]
      _ = w.pixels ++ (e :: rs).flatMap Range.pixels := by
          rw [ih (push_w0_run w e), ← List.append_assoc, push_conserves_pixels, ← pixels_of_oldest_empty h,
            List.flatMap_cons, List.append_assoc]

/-- Settles O20: the byte of the one decision, if it emits any. -/
theorem microStepCoversWhatItRemoves : Obligations.MicroStepCoversWhatItRemoves := by
  unfold Obligations.MicroStepCoversWhatItRemoves
  intro i e s pushes
  exact ⟨_, _, exec_of_pushedRange s pushes, cmpStep_outQ e s, Option.length_toList_le, push_w0_run s.win e,
    push_conserves_pixels s.win e⟩

/-! ### How many bytes, and none without a pixel -/

/-- A push emits at most one byte (R110). -/
theorem length_bytes_le (w : Window) (rs : List Range) : (w.bytes rs).length ≤ rs.length := by
  induction rs generalizing w with
  | nil => exact le_rfl
  | cons e rs ih =>
    have one : (w.shift e).emitted.toList.length ≤ 1 := Option.length_toList_le
    have rest := ih (w.push e)
    rw [Window.bytes_cons, List.length_append, List.length_cons]
    omega

/-- Every byte a decision emits stands for a pixel (R69). -/
theorem expand_ne_nil_of_emitted {w : Window} {b : Byte} (h : w.emitted = some b) : expand b ≠ [] := by
  obtain ⟨-, emits, -⟩ | ⟨-, -, -, emits, -⟩ | ⟨-, filled, -, emits, -⟩ | ⟨-, emits, -⟩ := decide_cases w
  · obtain rfl := Option.some.inj (emits.symm.trans h)
    rw [expand_patternByte]; exact List.cons_ne_nil _ _
  · obtain rfl := Option.some.inj (emits.symm.trans h)
    rw [expand_pairByte]; exact List.cons_ne_nil _ _
  · obtain rfl := Option.some.inj (emits.symm.trans h)
    have pos : w.w0.run.toNat ≠ 0 := fun zero => filled (BitVec.eq_of_toNat_eq zero)
    simpa using pos
  · cases emits.symm.trans h

/-- What holds of every byte a decision can emit holds of every byte of a list of pushes. -/
theorem forall_mem_bytes {P : Byte → Prop} (emitted : ∀ (w : Window) (b : Byte), w.emitted = some b → P b) (w : Window)
    (rs : List Range) : ∀ b ∈ w.bytes rs, P b := by
  induction rs generalizing w with
  | nil => exact fun b hb => absurd hb List.not_mem_nil
  | cons e rs ih =>
    intro b hb
    obtain now | later := List.mem_append.mp hb
    · exact emitted _ b (Option.mem_toList.mp now)
    · exact ih _ b later

end Sys2Proof.Machine
end

section
/-! The block's two top-level operations as one: a segmenter step on the normalised word, then the pushes it makes (42_top_level.md
section 1). What PIX and FLUSH change, how many bytes they emit, and the pixels they conserve. -/

namespace Sys2Proof.Machine

/-! ### One input word through both stages -/

/-- The ranges the compactor takes for an input word: the segmenter's, if one comes out, and behind the marker the placeholders
(R131, R133). -/
def Segmenter.pushes (g : Segmenter) (x : InWord) : List Range :=
  (g.out x).toList ++ if x = Config.sent then List.replicate Config.nPlaceholder .empty else []

/-- PIX and FLUSH alike, on the normalised word. -/
def topStep (x : InWord) (s : State) : State := pushRanges (s.seg.pushes x) (s.setSeg (s.seg.next x))

section
variable (x : InWord) (n : Index) (g : Segmenter) (s : State)

@[simp] theorem pushes_segWord : g.pushes (segWord n) = (g.out (segWord n)).toList := by
  rw [Segmenter.pushes, if_neg (segWord_ne_sent n), List.append_nil]

theorem pushes_sent : g.pushes Config.sent = (g.out Config.sent).toList ++ List.replicate 4 .empty := by
  rw [Segmenter.pushes, if_pos rfl, Config.nPlaceholder]

@[simp] theorem topStep_seg : (topStep x s).seg = s.seg.next x := rfl
@[simp] theorem topStep_win : (topStep x s).win = s.win.pushAll (s.seg.pushes x) := rfl
@[simp] theorem topStep_outQ : (topStep x s).outQ = s.outQ ++ s.win.bytes (s.seg.pushes x) := rfl
@[simp] theorem topStep_bus : (topStep x s).bus = none := rfl
@[simp] theorem topStep_inProgress : (topStep x s).inProgress = s.inProgress := rfl
@[simp] theorem topStep_booted : (topStep x s).booted = s.booted := rfl
@[simp] theorem topStep_pending : (topStep x s).pending = s.pending := rfl
@[simp] theorem topStep_trace : (topStep x s).trace = s.trace := rfl

/-- The compactor's share of a step is the push of the range that came out. -/
theorem takeBus_segStep_eq_pushRanges :
    takeBus (segStep x s) = pushRanges (s.seg.out x).toList (s.setSeg (s.seg.next x)) := by
  obtain ⟨out, h⟩ | ⟨r, out, h⟩ := takeBus_segStep x s
  · rw [h, out, Option.toList_none, ← pushRanges_nil (State.setBus_bus _ none)]
    rfl
  · rw [h, out, Option.toList_some, cmpStep_eq_pushRanges]

theorem exec_pix_eq_topStep : exec (.pix n) s = .next (topStep (segWord n) s) := by
  rw [exec_pix, takeBus_segStep_eq_pushRanges, topStep, pushes_segWord]

theorem exec_flush_eq_topStep : exec .flush s = .next (topStep Config.sent s) := by
  rw [exec_flush, takeBus_segStep_eq_pushRanges, pushPlaceholders_eq_pushRanges, ← pushRanges_append, topStep, pushes_sent]

/-- The operation of an input word. -/
theorem exec_decodeIn (w : InWord) : exec (decodeIn w) s = .next (topStep (normalise w) s) := by
  obtain ⟨flag, norm⟩ | ⟨flag, norm⟩ := normalise_cases w
  · rw [norm, decodeIn_of_flag_set flag, exec_flush_eq_topStep]
  · rw [norm, decodeIn_of_flag_clear flag, exec_pix_eq_topStep]

variable {s}

theorem exec_of_top {i : Instr} (h : i = .flush ∨ ∃ n, i = .pix n) : ∃ x, exec i s = .next (topStep x s) := by
  obtain rfl | ⟨n, rfl⟩ := h
  · exact ⟨_, exec_flush_eq_topStep s⟩
  · exact ⟨_, exec_pix_eq_topStep n s⟩

/-- After the marker both stages are as after reset but for the count (R136). -/
theorem pushAll_pushes_sent (w : Window) : w.pushAll (g.pushes Config.sent) = .empty := by
  rw [pushes_sent, Window.pushAll_append, pushAll_four_placeholders]

end

/-- Settles O25: the marker is left in the segmenter, and its placeholders have drained the window. -/
theorem flushLeavesTheResetState : Obligations.FlushLeavesTheResetState := by
  unfold Obligations.FlushLeavesTheResetState
  intro s
  exact ⟨_, _, exec_flush_eq_topStep s, next_prev _ _, pushAll_pushes_sent _ _, rfl, rfl, rfl, rfl, rfl, rfl⟩

/-! ### How many bytes (R135) -/

theorem length_bytes_pushes_pix_le (w : Window) (g : Segmenter) (n : Index) :
    (w.bytes (g.pushes (segWord n))).length ≤ 1 :=
  (length_bytes_le w _).trans (by rw [pushes_segWord]; exact Option.length_toList_le)

/-- The marker's fourth placeholder emits nothing. -/
theorem length_bytes_pushes_flush_le (w : Window) (g : Segmenter) : (w.bytes (g.pushes Config.sent)).length ≤ 4 := by
  have range : (w.bytes (g.out Config.sent).toList).length ≤ 1 := (length_bytes_le w _).trans Option.length_toList_le
  have placeholders := length_bytes_le (w.pushAll (g.out Config.sent).toList) (List.replicate 3 .empty)
  rw [List.length_replicate] at placeholders
  rw [pushes_sent, Window.bytes_append, bytes_four_placeholders, List.length_append]
  omega

theorem length_bytes_pushes_le (w : Window) (g : Segmenter) (x : InWord) :
    (w.bytes (g.pushes (normalise x))).length ≤ Config.maxStepBytes := by
  obtain ⟨-, norm⟩ | ⟨-, norm⟩ := normalise_cases x
  · rw [norm]; exact length_bytes_pushes_flush_le w g
  · rw [norm]; exact (length_bytes_pushes_pix_le w g _).trans (by decide)

/-- A run pending behind three slots that are no singletons: each of the four goes out as a byte of its own (P13 step 21). -/
def fourRanges : State :=
  { State.reset with seg := ⟨3, 5⟩, win := { w0 := .empty, w1 := ⟨5, 0⟩, w2 := ⟨5, 1⟩, w3 := ⟨5, 2⟩ } }

theorem fourRanges_kept : fourRanges.kept :=
  ⟨by decide, by decide, rfl, fun quiet => absurd quiet (by decide), rfl, fun _ h => by cases h⟩

/-- Settles O26: the bounds are those of the pushes, and `fourRanges` reaches the second. -/
theorem bytesPerStep : Obligations.BytesPerStep := by
  unfold Obligations.BytesPerStep
  refine ⟨fun n s => ?pix, fun s => ?flush, ?reached⟩
  case pix => exact ⟨_, _, exec_pix_eq_topStep n s, rfl, length_bytes_pushes_pix_le _ _ n⟩
  case flush => exact ⟨_, _, exec_flush_eq_topStep s, rfl, length_bytes_pushes_flush_le _ _⟩
  case reached =>
    exact ⟨fourRanges, _, [0xA8, 0xA9, 0xAA, 0xAB], fourRanges_kept, exec_flush_eq_topStep _, by decide, rfl⟩

/-! ### Pixels (R30, R154) -/

theorem flatMap_pixels_pushes (g : Segmenter) (x : InWord) :
    (g.pushes x).flatMap Range.pixels = (g.out x).toList.flatMap Range.pixels := by
  have placeholders : (List.replicate 4 Range.empty).flatMap Range.pixels = [] := rfl
  rw [Segmenter.pushes, List.flatMap_append]
  split
  · rw [Config.nPlaceholder, placeholders, List.append_nil]
  · rw [List.flatMap_nil, List.append_nil]

/-- A step's bytes, then the pixels held after it, are the pixels held before it and the word's own. -/
theorem topStep_conserves_pixels {s : State} (h : s.win.w0.run = 0) (x : InWord) :
    decodeBytes (s.win.bytes (s.seg.pushes (normalise x))) ++ (topStep (normalise x) s).held = s.held ++ pixelsOf [x] := by
  have window := pushAll_conserves_pixels h (s.seg.pushes (normalise x))
  have segmenter := seg_conserves_pixels s.seg x
  rw [State.held, topStep_win, topStep_seg, ← List.append_assoc, window, flatMap_pixels_pushes, List.append_assoc, segmenter,
    ← List.append_assoc, State.held]

theorem held_of_quiet {s : State} (quiet : s.seg.prev = Config.sent) (empty : s.win = .empty) : s.held = [] := by
  rw [State.held, empty, pixels_of_quiet quiet]
  rfl

theorem held_topStep_sent (s : State) : (topStep Config.sent s).held = [] :=
  held_of_quiet (next_prev _ _) (pushAll_pushes_sent _ _)

/-- Settles O28: both clauses are what one step conserves, with PIX's word one pixel and FLUSH's none. -/
theorem topStepsLoseNoPixel : Obligations.TopStepsLoseNoPixel := by
  unfold Obligations.TopStepsLoseNoPixel
  intro s h
  refine ⟨fun n => ⟨_, _, exec_pix_eq_topStep n s, rfl, pushAll_w0_run h _, ?pix⟩,
    _, _, exec_flush_eq_topStep s, rfl, held_topStep_sent s, ?flush⟩
  case pix =>
    have norm : normalise (segWord n) = segWord n := by revert n; decide
    have conserved := topStep_conserves_pixels h (segWord n)
    rwa [norm, pixelsOf_segWord] at conserved
  case flush =>
    have conserved := topStep_conserves_pixels h Config.sent
    rwa [pixelsOf_sent, List.append_nil, (by decide : normalise Config.sent = Config.sent), held_topStep_sent,
      List.append_nil] at conserved

/-! ### Frames (O33) -/

/-- Settles O33: each clause is the one equation of its operations. -/
theorem instructionFrames : Obligations.InstructionFrames := by
  unfold Obligations.InstructionFrames
  refine ⟨fun i s h => ?segmenter, fun i e s h => ?compactor, fun i s h => ?top, fun s => ?reset⟩
  case segmenter =>
    obtain ⟨x, run⟩ := exec_of_segmenter s h
    exact ⟨_, _, run⟩
  case compactor => exact ⟨_, _, exec_of_decision s h ⟨rfl, rfl⟩⟩
  case top =>
    obtain ⟨x, run⟩ := exec_of_top h
    exact ⟨_, _, _, run⟩
  case reset => exact ⟨_, exec_reset s, rfl, rfl⟩

/-! ### Decoded lengths (R140) -/

theorem length_expand_le (b : Byte) : (expand b).length ≤ 15 := by
  rw [expand]
  split
  · rw [List.length_replicate]
    exact Nat.le_of_lt_succ (byteRun b).isLt
  · split <;> exact Nat.le_of_ble_eq_true rfl

theorem length_decodeBytes_le (bs : List Byte) : (decodeBytes bs).length ≤ 15 * bs.length := by
  induction bs with
  | nil => exact le_rfl
  | cons b bs ih =>
    have first := length_expand_le b
    change (expand b ++ decodeBytes bs).length ≤ _
    rw [List.length_append, List.length_cons]
    omega

theorem length_le_length_decodeBytes {bs : List Byte} (h : ∀ b ∈ bs, expand b ≠ []) :
    bs.length ≤ (decodeBytes bs).length := by
  induction bs with
  | nil => exact le_rfl
  | cons b bs ih =>
    have first := List.length_pos_of_ne_nil (h b List.mem_cons_self)
    have rest := ih fun c hc => h c (List.mem_cons_of_mem b hc)
    change _ ≤ (expand b ++ decodeBytes bs).length
    rw [List.length_append, List.length_cons]
    omega

/-- Every byte of a list of pushes stands for a pixel. -/
theorem length_bytes_le_length_pixels (w : Window) (rs : List Range) :
    (w.bytes rs).length ≤ (decodeBytes (w.bytes rs)).length :=
  length_le_length_decodeBytes (forall_mem_bytes (fun _ _ => expand_ne_nil_of_emitted) w rs)

/-- With no pixel in the window, nor in what is pushed, nothing is emitted. -/
theorem bytes_eq_nil_of_pixels {w : Window} {rs : List Range} (h0 : w.w0.run = 0) (hw : w.pixels = [])
    (hr : rs.flatMap Range.pixels = []) : w.bytes rs = [] := by
  have conserved := pushAll_conserves_pixels h0 rs
  rw [hw, hr] at conserved
  have bound := length_bytes_le_length_pixels w rs
  rw [(List.append_eq_nil_iff.mp conserved).1] at bound
  exact List.eq_nil_of_length_eq_zero (Nat.le_zero.mp bound)

/-- Settles O27: no pixel is held, so no byte comes out, and every slot was and is empty. -/
theorem secondFlushIsHarmless : Obligations.SecondFlushIsHarmless := by
  unfold Obligations.SecondFlushIsHarmless
  intro s quiet h0 h1 h2 h3 clear
  have noPixel : s.win.pixels = [] := by
    rw [Window.pixels, pixels_of_run_zero h0, pixels_of_run_zero h1, pixels_of_run_zero h2, pixels_of_run_zero h3]
    rfl
  have noRange : (s.seg.pushes Config.sent).flatMap Range.pixels = [] := by
    rw [flatMap_pixels_pushes, out_of_prev_eq_sent _ quiet]
    rfl
  have same : (topStep Config.sent s).outQ = s.outQ := by
    rw [topStep_outQ, bytes_eq_nil_of_pixels h0 noPixel noRange, List.append_nil]
  have drained : (topStep Config.sent s).win = .empty := pushAll_pushes_sent _ _
  refine ⟨_, exec_flush_eq_topStep s, same, .inr ⟨quiet, next_prev _ _⟩, ?_, ?_, ?_, ?_, same.symm, clear, rfl, rfl, rfl, rfl⟩
  all_goals rw [drained]
  · exact .inr ⟨h0, rfl⟩
  · exact .inr ⟨h1, rfl⟩
  · exact .inr ⟨h2, rfl⟩
  · exact .inr ⟨h3, rfl⟩

end Sys2Proof.Machine
end

section
/-! Whole images (40_segmenter.md section 3, 41_compactor.md section 4, 42_top_level.md section 2, 45_reference_decoder.md): the
ranges the segmenter makes of a list of words, the two stages one after the other, and the round trip. -/

namespace Sys2Proof.Machine

/-! ### Lists of input words -/

/-- `topStep` on each normalised word in order. -/
def topSteps (xs : List InWord) (s : State) : State := xs.foldl (fun s x => topStep x s) s

/-- The ranges that come out of the segmenter over a list of normalised words. -/
def Segmenter.ranges : Segmenter → List InWord → List Range
  | _, [] => []
  | g, x :: xs => (g.out x).toList ++ (g.next x).ranges xs

/-- The segmenter's registers after a list of normalised words. -/
def Segmenter.nextAll (g : Segmenter) (xs : List InWord) : Segmenter := xs.foldl Segmenter.next g

section
variable (n : Index) (p : List Index) (x : InWord) (xs ys ws : List InWord) (g : Segmenter) (s : State)

@[simp] theorem topSteps_nil : topSteps [] s = s := rfl
@[simp] theorem topSteps_cons : topSteps (x :: xs) s = topSteps xs (topStep x s) := rfl
theorem topSteps_append : topSteps (xs ++ ys) s = topSteps ys (topSteps xs s) := List.foldl_append

@[simp] theorem Segmenter.ranges_nil : g.ranges [] = [] := rfl
theorem Segmenter.ranges_cons : g.ranges (x :: xs) = (g.out x).toList ++ (g.next x).ranges xs := rfl
@[simp] theorem Segmenter.nextAll_nil : g.nextAll [] = g := rfl
@[simp] theorem Segmenter.nextAll_cons : g.nextAll (x :: xs) = (g.next x).nextAll xs := rfl
theorem Segmenter.nextAll_concat : g.nextAll (xs ++ [x]) = (g.nextAll xs).next x := by
  rw [nextAll, List.foldl_append]
  rfl

/-- The operations of accepted words run as their normalised words' steps. -/
theorem execAll_decodeIn : execAll (ws.map decodeIn) s = .next (topSteps (ws.map normalise) s) := by
  induction ws generalizing s with
  | nil => rfl
  | cons w ws ih => rw [List.map_cons, execAll_cons (exec_decodeIn s w), ih, List.map_cons, topSteps_cons]

@[simp] theorem decodeIn_segWord : decodeIn (segWord n) = .pix n := by revert n; decide
@[simp] theorem decodeIn_sent : decodeIn Config.sent = .flush := by decide
@[simp] theorem normalise_segWord : normalise (segWord n) = segWord n := by revert n; decide
@[simp] theorem normalise_sent : normalise Config.sent = Config.sent := by decide

@[simp] theorem imageWords_nil : imageWords [] = [Config.sent] := rfl
@[simp] theorem imageWords_cons : imageWords (n :: p) = segWord n :: imageWords p := rfl

@[simp] theorem map_normalise_imageWords : (imageWords p).map normalise = imageWords p := by
  induction p with
  | nil => rfl
  | cons n p ih => rw [imageWords_cons, List.map_cons, ih, normalise_segWord]

@[simp] theorem pixelsOf_imageWords : pixelsOf (imageWords p) = p := by
  induction p with
  | nil => rfl
  | cons n p ih => rw [imageWords_cons, ← List.singleton_append, pixelsOf_append, ih, pixelsOf_segWord, List.singleton_append]

/-- The operations of an image are those of its words. -/
theorem image_ops : p.map .pix ++ [.flush] = (imageWords p).map decodeIn := by
  induction p with
  | nil => rfl
  | cons n p ih => rw [imageWords_cons, List.map_cons, List.map_cons, ← ih, decodeIn_segWord, List.cons_append]

theorem execAll_image : execAll (p.map .pix ++ [.flush]) s = .next (topSteps (imageWords p) s) := by
  rw [image_ops, execAll_decodeIn, map_normalise_imageWords]

end

/-! ### The segmenter over an image -/

section
variable (p : List Index) (g : Segmenter) (s : State)

theorem rangesOnBus_cons_segStep {i : Instr} {x : InWord} {s : State} (is : List Instr)
    (h : exec i s = .next (segStep x s)) : rangesOnBus (i :: is) s = (s.seg.out x).toList ++ rangesOnBus is (segStep x s) := by
  rw [rangesOnBus, h]
  cases out : s.seg.out x <;> simp [out]

theorem rangesOnBus_image : rangesOnBus (p.map .segPix ++ [.segFlush]) s = s.seg.ranges (imageWords p) := by
  induction p generalizing s with
  | nil => exact rangesOnBus_cons_segStep [] (exec_segFlush s)
  | cons n p ih =>
    rw [List.map_cons, List.cons_append, rangesOnBus_cons_segStep _ (exec_segPix s n), ih, segStep_seg, imageWords_cons,
      Segmenter.ranges_cons]

theorem segRanges_eq_ranges : segRanges p = Segmenter.reset.ranges (imageWords p) := rangesOnBus_image p State.reset

/-- The ranges, then the run left pending, expand to the run that was pending and the words' pixels (R84). -/
theorem ranges_conserve_pixels (ws : List InWord) :
    (g.ranges (ws.map normalise)).flatMap Range.pixels ++ (g.nextAll (ws.map normalise)).pixels = g.pixels ++ pixelsOf ws := by
  induction ws generalizing g with
  | nil => rw [List.map_nil, Segmenter.ranges_nil, Segmenter.nextAll_nil, pixelsOf_nil, List.append_nil]; rfl
  | cons w ws ih =>
    rw [List.map_cons, Segmenter.ranges_cons, Segmenter.nextAll_cons, List.flatMap_append, List.append_assoc, ih,
      ← List.append_assoc, seg_conserves_pixels, List.append_assoc, ← pixelsOf_append, List.singleton_append]

/-- An image ends with the marker in the segmenter. -/
theorem nextAll_imageWords_prev : (g.nextAll (imageWords p)).prev = Config.sent := by
  rw [imageWords, Segmenter.nextAll_concat, next_prev]

/-- The count while nothing is pending is not read (R87). -/
theorem ranges_of_quiet {g h : Segmenter} (hg : g.prev = Config.sent) (hh : h.prev = Config.sent) :
    g.ranges (imageWords p) = h.ranges (imageWords p) := by
  cases p with
  | nil => rw [imageWords_nil, Segmenter.ranges_cons, Segmenter.ranges_cons, out_of_prev_eq_sent _ hg,
      out_of_prev_eq_sent _ hh, Segmenter.ranges_nil, Segmenter.ranges_nil]
  | cons n p =>
    obtain ⟨gNext, gOut⟩ := seg_of_starts hg (segWord_ne_sent n)
    obtain ⟨hNext, hOut⟩ := seg_of_starts hh (segWord_ne_sent n)
    rw [imageWords_cons, Segmenter.ranges_cons, Segmenter.ranges_cons, gNext, gOut, hNext, hOut]

end

/-- Settles O13: from the reset state to the closing marker no run is pending. -/
theorem segRangesExpandToPixels : Obligations.SegRangesExpandToPixels := by
  unfold Obligations.SegRangesExpandToPixels
  intro p
  have conserved := ranges_conserve_pixels Segmenter.reset (imageWords p)
  rw [map_normalise_imageWords, pixels_of_quiet (nextAll_imageWords_prev p _), pixels_of_quiet Segmenter.reset_prev,
    pixelsOf_imageWords, List.append_nil] at conserved
  rw [segRanges_eq_ranges]
  exact conserved

/-! ### The cap (R85) -/

section
variable (c : Index) (p : List Index)

/-- A reset segmenter starts a run with the image's first pixel. -/
theorem segRanges_cons : segRanges (c :: p) = Segmenter.ranges ⟨segWord c, 1⟩ (imageWords p) := by
  obtain ⟨next, out⟩ := seg_of_starts Segmenter.reset_prev (segWord_ne_sent c)
  rw [segRanges_eq_ranges, imageWords_cons, Segmenter.ranges_cons, next, out]
  rfl

/-- The closing marker brings the pending run out. -/
theorem ranges_pending_nil (k : RunLength) : Segmenter.ranges ⟨segWord c, k⟩ (imageWords []) = [{ run := k, color := c }] := by
  obtain ⟨-, out⟩ := seg_of_ends (g := ⟨segWord c, k⟩) (segWord_ne_sent c) (.inl (segWord_ne_sent c).symm)
  rw [imageWords_nil, Segmenter.ranges_cons, out, color_segWord]
  rfl

theorem ranges_pending_goes_on {k : RunLength} (below : k ≠ Config.runCap) :
    Segmenter.ranges ⟨segWord c, k⟩ (imageWords (c :: p)) = Segmenter.ranges ⟨segWord c, k + 1⟩ (imageWords p) := by
  obtain ⟨next, out⟩ := seg_of_continues (g := ⟨segWord c, k⟩) rfl below
  rw [imageWords_cons, Segmenter.ranges_cons, next, out]
  rfl

theorem ranges_pending_breaks {n : Index} {k : RunLength} (h : n ≠ c ∨ k = Config.runCap) :
    Segmenter.ranges ⟨segWord c, k⟩ (imageWords (n :: p)) =
      { run := k, color := c } :: Segmenter.ranges ⟨segWord n, 1⟩ (imageWords p) := by
  obtain ⟨next, out⟩ := seg_of_ends (g := ⟨segWord c, k⟩) (segWord_ne_sent c) (h.imp_left (mt segWord_inj.mp))
  rw [imageWords_cons, Segmenter.ranges_cons, next, out, color_segWord]
  rfl

end

/-- A run of `k` pending pixels and `m` more of its colour: the last range has 1 to 15 pixels, those before it 15 each. -/
theorem ranges_of_pending_run (c : Index) (m : Nat) {k : RunLength} (pos : k ≠ 0) :
    Segmenter.ranges ⟨segWord c, k⟩ (imageWords (List.replicate m c)) =
      List.replicate ((k.toNat + m - 1) / 15) { run := 15, color := c } ++
        [{ run := BitVec.ofNat 4 ((k.toNat + m - 1) % 15 + 1), color := c }] := by
  induction m generalizing k with
  | zero =>
    have bound := k.isLt
    have pos' : k.toNat ≠ 0 := fun zero => pos (BitVec.eq_of_toNat_eq zero)
    have quotient : (k.toNat + 0 - 1) / 15 = 0 := by omega
    have rest : (k.toNat + 0 - 1) % 15 + 1 = k.toNat := by omega
    rw [List.replicate_zero, ranges_pending_nil, quotient, rest, BitVec.ofNat_toNat, BitVec.setWidth_eq]
    rfl
  | succ m ih =>
    rw [List.replicate_succ]
    by_cases cap : k = Config.runCap
    · have quotient : (15 + (m + 1) - 1) / 15 = m / 15 + 1 := by omega
      have rest : (15 + (m + 1) - 1) % 15 = m % 15 := by omega
      have one : (1 : RunLength).toNat + m - 1 = m := by change 1 + m - 1 = m; omega
      rw [ranges_pending_breaks _ _ (.inr cap), ih (by decide), one, cap, (by decide : Config.runCap.toNat = 15), quotient,
        rest, List.replicate_succ, List.cons_append]
      rfl
    · have goesOn : (k + 1).toNat + m - 1 = k.toNat + (m + 1) - 1 := by rw [count_add_one_toNat cap]; omega
      rw [ranges_pending_goes_on _ _ cap, ih (count_add_one_ne_zero cap), goesOn]

/-- Settles O14: the last range is a full one exactly when 15 divides the length. -/
theorem segCapSplitsRuns : Obligations.SegCapSplitsRuns := by
  unfold Obligations.SegCapSplitsRuns
  intro m c
  cases m with
  | zero => rfl
  | succ m =>
    have one : (1 : RunLength).toNat + m - 1 = m := by change 1 + m - 1 = m; omega
    rw [List.replicate_succ, segRanges_cons, ranges_of_pending_run c m (by decide), one]
    by_cases full : (m + 1) % 15 = 0
    · have quotient : (m + 1) / 15 = m / 15 + 1 := by omega
      have rest : m % 15 + 1 = 15 := by omega
      rw [if_pos full, quotient, rest, List.replicate_succ', List.append_nil]
      rfl
    · have quotient : (m + 1) / 15 = m / 15 := by omega
      have rest : (m + 1) % 15 = m % 15 + 1 := by omega
      rw [if_neg full, quotient, rest]

/-! ### Neighbouring ranges (R83, R89) -/

/-- Two ranges in a row share a colour only where the cap split a run. -/
def Range.splitByCap (a b : Range) : Prop := a.color = b.color → a.run = 15

/-- The ranges of a pending run and an image after it: the first has the run's colour, each has a run, neighbours are as R89 says. -/
theorem ranges_neighbours (p : List Index) (c : Index) {k : RunLength} (pos : k ≠ 0) :
    (∀ r ∈ (Segmenter.ranges ⟨segWord c, k⟩ (imageWords p)).head?, r.color = c) ∧
    (∀ r ∈ Segmenter.ranges ⟨segWord c, k⟩ (imageWords p), r.run ≠ 0) ∧
    (Segmenter.ranges ⟨segWord c, k⟩ (imageWords p)).IsChain Range.splitByCap := by
  induction p generalizing c k with
  | nil =>
    rw [ranges_pending_nil]
    exact ⟨by simp, by simpa using pos, List.isChain_singleton _⟩
  | cons n p ih =>
    by_cases breaks : n ≠ c ∨ k = Config.runCap
    · obtain ⟨first, runs, chain⟩ := ih n (k := 1) (by decide)
      rw [ranges_pending_breaks _ _ breaks]
      refine ⟨by simp, List.forall_mem_cons.mpr ⟨pos, runs⟩, List.isChain_cons.mpr ⟨fun r hr same => ?_, chain⟩⟩
      exact breaks.resolve_left (not_not.mpr ((first r hr).symm.trans same.symm))
    · obtain ⟨same, below⟩ := not_or.mp breaks
      obtain rfl := not_not.mp same
      rw [ranges_pending_goes_on n p below]
      exact ih n (count_add_one_ne_zero below)

/-- Settles O15: a non-empty image's ranges are those of its first pixel's run and the rest. -/
theorem segNeighboursDifferInColour : Obligations.SegNeighboursDifferInColour := by
  unfold Obligations.SegNeighboursDifferInColour
  intro p
  cases p with
  | nil =>
    have none : segRanges [] = [] := rfl
    simp [none]
  | cons n p =>
    obtain ⟨-, runs, chain⟩ := ranges_neighbours p n (k := 1) (by decide)
    rw [segRanges_cons]
    refine ⟨runs, fun k a b ha hb same => ?_⟩
    obtain ⟨_, rfl⟩ := List.getElem?_eq_some_iff.mp ha
    obtain ⟨hk, rfl⟩ := List.getElem?_eq_some_iff.mp hb
    exact chain.getElem k hk same

/-! ### The two stages one after the other (R138) -/

/-- The micro-operation that pushes a range pushes it. -/
theorem pushedRange_pushOp (r : Range) : pushedRange (pushOp r) = some r := by
  obtain ⟨run, color⟩ := r
  by_cases h : run = 0
  · rw [pushOp, if_pos h, h]; rfl
  · rw [pushOp, if_neg h]; rfl

theorem bytesAfter_of_execAll {is : List Instr} {s t : State} (h : execAll is s = .next t) : bytesAfter is s = t.outQ := by
  rw [bytesAfter, h]

theorem cmpBytes_eq_bytes (rs : List Range) : cmpBytes rs = Window.empty.bytes (rs ++ List.replicate 4 .empty) := by
  have pushes : (rs.map pushOp ++ List.replicate 4 (Instr.cmpPh 0)).map pushedRange =
      (rs ++ List.replicate 4 Range.empty).map some := by
    rw [List.map_append, List.map_append, List.map_map, funext (f := pushedRange ∘ pushOp) pushedRange_pushOp]
    rfl
  exact bytesAfter_of_execAll (execAll_pushOps pushes rfl)

/-- An image's words push the segmenter's ranges, in order, and then the placeholders. -/
theorem topSteps_imageWords (p : List Index) (s : State) :
    topSteps (imageWords p) s =
      pushRanges (s.seg.ranges (imageWords p) ++ List.replicate 4 .empty) (s.setSeg (s.seg.nextAll (imageWords p))) := by
  induction p generalizing s with
  | nil =>
    rw [imageWords_nil, Segmenter.ranges_cons, Segmenter.ranges_nil, List.append_nil, ← pushes_sent]
    rfl
  | cons n p ih =>
    rw [imageWords_cons, topSteps_cons, ih, Segmenter.ranges_cons, List.append_assoc, ← pushes_segWord]
    exact (pushRanges_append (s.seg.pushes (segWord n)) _ (s.setSeg (s.seg.nextAll (segWord n :: imageWords p)))).symm

/-- From any state in which an image may start, the bytes of an image go behind those queued. -/
theorem bytesAfter_image (p : List Index) (s : State) :
    bytesAfter (p.map .pix ++ [.flush]) s =
      s.outQ ++ s.win.bytes (s.seg.ranges (imageWords p) ++ List.replicate 4 .empty) := by
  rw [bytesAfter_of_execAll (execAll_image p s), topSteps_imageWords]
  rfl

theorem encodeImage_eq_bytes (p : List Index) :
    encodeImage p = Window.empty.bytes (segRanges p ++ List.replicate 4 .empty) := by
  rw [encodeImage, bytesAfter_image, State.reset_outQ, List.nil_append, segRanges_eq_ranges]
  rfl

/-- Settles O29: both sides push the same ranges into the empty window. -/
theorem encodeIsTwoStages : Obligations.EncodeIsTwoStages := by
  unfold Obligations.EncodeIsTwoStages
  intro p
  rw [encodeImage_eq_bytes, cmpBytes_eq_bytes]

/-- Settles O22: the window is empty before the first push and after the fourth placeholder. -/
theorem compactorRoundTrip : Obligations.CompactorRoundTrip := by
  unfold Obligations.CompactorRoundTrip
  intro rs
  have conserved := pushAll_conserves_pixels (w := .empty) rfl (rs ++ List.replicate 4 .empty)
  have placeholders : (List.replicate 4 Range.empty).flatMap Range.pixels = [] := rfl
  rw [Window.pushAll_append, pushAll_four_placeholders, Window.empty_pixels, List.append_nil, List.nil_append,
    List.flatMap_append, placeholders, List.append_nil, ← cmpBytes_eq_bytes] at conserved
  exact conserved

theorem decodeBytes_encodeImage (p : List Index) : decodeBytes (encodeImage p) = p := by
  rw [encodeIsTwoStages p, compactorRoundTrip (segRanges p), segRangesExpandToPixels p]

/-- Settles O30: the round trips of the two stages, one after the other. -/
theorem imageRoundTrip : Obligations.ImageRoundTrip := by
  unfold Obligations.ImageRoundTrip
  exact decodeBytes_encodeImage

/-- Settles O31: every byte emitted stands for 1 to 15 pixels. -/
theorem encodedLengthBounds : Obligations.EncodedLengthBounds := by
  unfold Obligations.EncodedLengthBounds
  intro p
  have most := length_decodeBytes_le (encodeImage p)
  have least := length_bytes_le_length_pixels .empty (segRanges p ++ List.replicate 4 .empty)
  rw [← encodeImage_eq_bytes] at least
  rw [decodeBytes_encodeImage] at most least
  exact ⟨most, least⟩

end Sys2Proof.Machine
end

section
/-! What no port can tell apart (40_segmenter.md R87, 41_compactor.md R108): states equal but for the colours of empty slots and the
count while nothing is pending go on so at every step, with the same bytes. -/

namespace Sys2Proof.Machine

/-! ### Windows -/

/-- Two windows equal but for the colours of empty slots. -/
def Window.alike (v w : Window) : Prop := v.w0.alike w.w0 ∧ v.w1.alike w.w1 ∧ v.w2.alike w.w2 ∧ v.w3.alike w.w3

theorem Range.alike_refl (r : Range) : r.alike r := .inl rfl

theorem Range.alike_symm {a b : Range} (h : a.alike b) : b.alike a := h.imp Eq.symm And.symm

theorem Range.run_eq_of_alike {a b : Range} (h : a.alike b) : a.run = b.run :=
  h.elim (congrArg Range.run) fun empty => empty.1.trans empty.2.symm

theorem Range.eq_of_alike {a b : Range} (h : a.alike b) (filled : a.run ≠ 0) : a = b :=
  h.resolve_right fun empty => filled empty.1

theorem Window.alike_refl (w : Window) : w.alike w :=
  ⟨Range.alike_refl _, Range.alike_refl _, Range.alike_refl _, Range.alike_refl _⟩

theorem Window.alike_symm {v w : Window} (h : v.alike w) : w.alike v := by
  obtain ⟨h0, h1, h2, h3⟩ := h
  exact ⟨Range.alike_symm h0, Range.alike_symm h1, Range.alike_symm h2, Range.alike_symm h3⟩

/-- Case 1 needs four filled slots, so it finds the same window. -/
theorem eq_of_alike_of_alternates {v w : Window} (h : v.alike w) (ha : v.alternates = true) : v = w := by
  obtain ⟨v0, v1, v2, v3⟩ := v
  obtain ⟨w0, w1, w2, w3⟩ := w
  obtain ⟨h0, h1, h2, h3⟩ := h
  obtain ⟨r0, r1, r2, r3, -, -⟩ := (alternates_iff _).mp ha
  have filled : ∀ {r : RunLength}, r = 1 → r ≠ 0 := by decide
  obtain rfl : v0 = w0 := Range.eq_of_alike h0 (filled r0)
  obtain rfl : v1 = w1 := Range.eq_of_alike h1 (filled r1)
  obtain rfl : v2 = w2 := Range.eq_of_alike h2 (filled r2)
  obtain rfl : v3 = w3 := Range.eq_of_alike h3 (filled r3)
  rfl

/-- The decision reads the colours of filled slots only. -/
theorem decide_of_alike {v w : Window} (h : v.alike w) : w.emitted = v.emitted ∧ v.decided.alike w.decided := by
  obtain ⟨ha, -⟩ | ⟨ha, one, filled, emits, hv⟩ | ⟨-, filled, lone, emits, hv⟩ | ⟨empty, emits, hv⟩ := decide_cases v
  · obtain rfl := eq_of_alike_of_alternates h ha
    exact ⟨rfl, Window.alike_refl _⟩
  · have ha' : w.alternates ≠ true := fun hw => by
      obtain rfl := eq_of_alike_of_alternates (Window.alike_symm h) hw
      exact absurd (ha.symm.trans hw) Bool.false_ne_true
    obtain ⟨h0, h1, h2, h3⟩ := h
    have same0 : v.w0 = w.w0 := Range.eq_of_alike h0 (one ▸ by decide)
    have same1 : v.w1 = w.w1 := Range.eq_of_alike h1 filled
    obtain ⟨emits', hw⟩ := decide_of_singleton ha' (same0 ▸ one) (same1 ▸ filled)
    rw [emits, emits', hv, hw, same0, same1]
    exact ⟨rfl, Range.alike_refl _, Range.alike_refl _, h2, h3⟩
  · obtain ⟨h0, h1, h2, h3⟩ := h
    have same0 : v.w0 = w.w0 := Range.eq_of_alike h0 filled
    obtain ⟨emits', hw⟩ := decide_of_plain (w := w) (same0 ▸ filled)
      fun one => (Range.run_eq_of_alike h1).symm.trans (lone (same0 ▸ one))
    rw [emits, emits', hv, hw, same0]
    exact ⟨rfl, Range.alike_refl _, h1, h2, h3⟩
  · obtain ⟨emits', hw⟩ := decide_of_empty ((Range.run_eq_of_alike h.1).symm.trans empty)
    rw [emits, emits', hv, hw]
    exact ⟨rfl, h⟩

theorem shift_alike {v w : Window} (h : v.alike w) (e : Range) : (v.shift e).alike (w.shift e) := by
  obtain ⟨-, h1, h2, h3⟩ := h
  exact ⟨h1, h2, h3, Range.alike_refl e⟩

/-- Pushing the same ranges emits the same bytes and leaves windows as alike as before. -/
theorem pushes_alike {v w : Window} (h : v.alike w) (rs : List Range) :
    w.bytes rs = v.bytes rs ∧ (v.pushAll rs).alike (w.pushAll rs) := by
  induction rs generalizing v w with
  | nil => exact ⟨rfl, h⟩
  | cons e rs ih =>
    obtain ⟨sameByte, pushed⟩ := decide_of_alike (shift_alike h e)
    obtain ⟨sameBytes, alike⟩ := ih pushed
    exact ⟨congrArg₂ (·.toList ++ ·) sameByte sameBytes, alike⟩

/-! ### States -/

theorem seg_of_alike {g h : Segmenter} (alike : g.alike h) (x : InWord) :
    h.out x = g.out x ∧ (g.next x).alike (h.next x) := by
  obtain rfl | ⟨hg, hh⟩ := alike
  · exact ⟨rfl, .inl rfl⟩
  · refine ⟨(out_of_prev_eq_sent x hh).trans (out_of_prev_eq_sent x hg).symm, ?_⟩
    by_cases marker : x = Config.sent
    · exact .inr ⟨(next_prev g x).trans marker, (next_prev h x).trans marker⟩
    · exact .inl ((seg_of_starts hg marker).1.trans (seg_of_starts hh marker).1.symm)

/-- `s` with other values in both stages. -/
def State.setStages (s : State) (g : Segmenter) (w : Window) : State := { s with seg := g, win := w }

theorem alike_iff {s t : State} :
    s.alike t ↔ ∃ g w, t = s.setStages g w ∧ s.seg.alike g ∧ s.win.alike w := by
  constructor
  · rintro ⟨seg, h0, h1, h2, h3, outQ, bus, inProgress, booted, pending, trace⟩
    refine ⟨t.seg, t.win, ?_, seg, h0, h1, h2, h3⟩
    rw [State.setStages, outQ, bus, inProgress, booted, pending, trace]
  · rintro ⟨g, w, rfl, seg, h0, h1, h2, h3⟩
    exact ⟨seg, h0, h1, h2, h3, rfl, rfl, rfl, rfl, rfl, rfl⟩

theorem setStages_alike {s : State} {g : Segmenter} {w : Window} (hg : s.seg.alike g) (hw : s.win.alike w) :
    s.alike (s.setStages g w) := alike_iff.mpr ⟨g, w, rfl, hg, hw⟩

theorem State.alike_refl (s : State) : s.alike s := setStages_alike (.inl rfl) (Window.alike_refl _)

section
variable {s t : State} (h : s.alike t)
include h

theorem segStep_alike (x : InWord) : (segStep x s).alike (segStep x t) := by
  obtain ⟨g, w, rfl, hg, hw⟩ := alike_iff.mp h
  obtain ⟨sameOut, next⟩ := seg_of_alike hg x
  refine alike_iff.mpr ⟨g.next x, w, ?_, next, hw⟩
  change { s with seg := g.next x, win := w, bus := (g.out x).map Range.toBus } = _
  rw [sameOut]
  rfl

theorem pushRanges_alike (rs : List Range) : (pushRanges rs s).alike (pushRanges rs t) := by
  obtain ⟨g, w, rfl, hg, hw⟩ := alike_iff.mp h
  obtain ⟨sameBytes, pushed⟩ := pushes_alike hw rs
  refine alike_iff.mpr ⟨g, w.pushAll rs, ?_, hg, pushed⟩
  change { s with seg := g, win := w.pushAll rs, outQ := s.outQ ++ w.bytes rs, bus := none } = _
  rw [sameBytes]
  rfl

theorem topStep_alike (x : InWord) : (topStep x s).alike (topStep x t) := by
  obtain ⟨g, w, rfl, hg, hw⟩ := alike_iff.mp h
  obtain ⟨sameOut, next⟩ := seg_of_alike hg x
  have samePushes : g.pushes x = s.seg.pushes x := by rw [Segmenter.pushes, sameOut, Segmenter.pushes]
  have stages : (s.setSeg (s.seg.next x)).alike (s.setStages (g.next x) w) :=
    alike_iff.mpr ⟨g.next x, w, rfl, next, hw⟩
  change (topStep x s).alike (pushRanges (g.pushes x) (s.setStages (g.next x) w))
  rw [samePushes]
  exact pushRanges_alike stages _

/-- Every operation keeps alike states alike. -/
theorem exec_alike (i : Instr) : ∃ s' t', exec i s = .next s' ∧ exec i t = .next t' ∧ s'.alike t' := by
  cases i with
  | pix n => exact ⟨_, _, exec_pix_eq_topStep n s, exec_pix_eq_topStep n t, topStep_alike h _⟩
  | flush => exact ⟨_, _, exec_flush_eq_topStep s, exec_flush_eq_topStep t, topStep_alike h _⟩
  | reset =>
    obtain ⟨g, w, rfl, -, -⟩ := alike_iff.mp h
    exact ⟨_, _, exec_reset s, exec_reset _, State.alike_refl (resetBlock s)⟩
  | segPix n => exact ⟨_, _, exec_segPix s n, exec_segPix t n, segStep_alike h _⟩
  | segFlush => exact ⟨_, _, exec_segFlush s, exec_segFlush t, segStep_alike h _⟩
  | cmpPh c =>
    refine ⟨_, _, exec_cmpPh s c, exec_cmpPh t c, ?_⟩
    rw [cmpStep_eq_pushRanges, cmpStep_eq_pushRanges]
    exact pushRanges_alike h _
  | cmpRange r c =>
    refine ⟨_, _, exec_cmpRange s r c, exec_cmpRange t r c, ?_⟩
    rw [cmpStep_eq_pushRanges, cmpStep_eq_pushRanges]
    exact pushRanges_alike h _

theorem setPending_alike (ds : List Drive) : (s.setPending ds).alike (t.setPending ds) := by
  obtain ⟨g, w, rfl, hg, hw⟩ := alike_iff.mp h
  exact setStages_alike hg hw

theorem log_alike (ev : PortEvent) : (s.log ev).alike (t.log ev) := by
  obtain ⟨g, w, rfl, hg, hw⟩ := alike_iff.mp h
  exact setStages_alike hg hw

theorem setInProgress_alike (x : Option InWord) : (s.setInProgress x).alike (t.setInProgress x) := by
  obtain ⟨g, w, rfl, hg, hw⟩ := alike_iff.mp h
  exact setStages_alike hg hw

theorem setOutQ_alike (q : List Byte) : (s.setOutQ q).alike (t.setOutQ q) := by
  obtain ⟨g, w, rfl, hg, hw⟩ := alike_iff.mp h
  exact setStages_alike hg hw

/-- The outputs of a cycle read neither stage. -/
theorem outputs_of_alike (e : Edge) : idleOut e t = idleOut e s ∧ transfers e t = transfers e s ∧ accepts e t = accepts e s ∧
    outData e t = outData e s ∧ t.outQ = s.outQ ∧ t.inProgress = s.inProgress ∧ t.booted = s.booted := by
  obtain ⟨g, w, rfl, -, -⟩ := alike_iff.mp h
  exact ⟨rfl, rfl, rfl, rfl, rfl, rfl, rfl⟩

theorem watchIdle_alike (e : Edge) : (watchIdle e s).alike (watchIdle e t) := by
  obtain ⟨idle, -⟩ := outputs_of_alike h e
  rw [watchIdle, watchIdle, idle]
  split
  · exact log_alike h _
  · exact h

theorem transferOut_alike (e : Edge) : (transferOut e s).alike (transferOut e t) := by
  obtain ⟨-, transfer, -, -, outQ, -⟩ := outputs_of_alike h e
  rw [transferOut, transferOut, transfer, outQ]
  split
  · cases s.outQ with
    | nil => exact h
    | cons b q => exact log_alike (setOutQ_alike h q) _
  · exact h

theorem acceptIn_alike {s₀ t₀ : State} (h₀ : s₀.alike t₀) (e : Edge) : (acceptIn e s₀ s).alike (acceptIn e t₀ t) := by
  obtain ⟨-, -, accept, -⟩ := outputs_of_alike h₀ e
  rw [acceptIn, acceptIn, accept]
  split
  · exact log_alike (setInProgress_alike h _) _
  · exact h

theorem finishStep_alike (e : Edge) :
    ∃ s' t', finishStep e s = .next s' ∧ finishStep e t = .next t' ∧ s'.alike t' := by
  obtain ⟨-, -, -, -, -, inProgress, -⟩ := outputs_of_alike h e
  rw [finishStep, finishStep, inProgress]
  split
  · exact exec_alike (setInProgress_alike h none) _
  · exact ⟨s, t, rfl, rfl, h⟩

theorem unbootedEdge_alike (e : Edge) : (unbootedEdge e s).alike (unbootedEdge e t) := by
  obtain ⟨idle, transfer, accept, data, -⟩ := outputs_of_alike h e
  obtain ⟨g, w, rfl, -, -⟩ := alike_iff.mp h
  have same : unbootedEdge e (s.setStages g w) = unbootedEdge e s := by
    rw [unbootedEdge, unbootedEdge, watchIdle, watchIdle, idle, transfer, accept, data]
    cases idleOut e s <;> cases transfers e s <;> cases accepts e s <;> rfl
  rw [same]
  exact State.alike_refl _

theorem clockEdge_alike (e : Edge) :
    ∃ s' t', clockEdge e s = .next s' ∧ clockEdge e t = .next t' ∧ s'.alike t' := by
  obtain ⟨-, -, -, -, -, -, booted⟩ := outputs_of_alike h e
  rw [clockEdge, clockEdge, booted]
  split
  · exact exec_alike (log_alike (watchIdle_alike h e) .rst) .reset
  split
  · exact finishStep_alike (acceptIn_alike (transferOut_alike (watchIdle_alike h e) e) h e) e
  · exact ⟨_, _, rfl, rfl, unbootedEdge_alike h e⟩

end

/-- Settles O52: nothing is scheduled, or one drive of the three kinds. -/
theorem unobservableStaysSo : Obligations.UnobservableStaysSo := by
  unfold Obligations.UnobservableStaysSo
  intro s t h
  have pending : t.pending = s.pending := by
    obtain ⟨g, w, rfl, -, -⟩ := alike_iff.mp h
    rfl
  cases scheduled : s.pending with
  | nil => exact ⟨s, t, step_nil scheduled, step_nil (pending.trans scheduled), h⟩
  | cons d rest =>
    rw [step_cons scheduled, step_cons (pending.trans scheduled)]
    have h' := setPending_alike h rest
    cases d with
    | edge e => exact clockEdge_alike h' e
    | seg w => exact exec_alike h' _
    | cmp w => exact exec_alike h' _

/-! ### The source's examples (95_test_vectors.md W1 to W4) -/

section
variable (w : Window) (e : Range) (rs : List Range)

/-- The oldest slot is shifted out before any decision, so it never shows. -/
theorem bytes_ignores_oldest (r : Range) : ({ w with w0 := r } : Window).bytes rs = w.bytes rs := by
  cases rs with
  | nil => rfl
  | cons e rs => rfl

theorem bytes_cons_of_empty {w : Window} (h : w.w1.run = 0) : w.bytes (e :: rs) = (w.shift e).bytes rs := by
  obtain ⟨emits, decided⟩ := decide_of_empty (w := w.shift e) h
  rw [Window.bytes_cons, emits, Window.push, decided]
  rfl

theorem bytes_cons_of_plain {w : Window} (h : w.w1.run ≠ 0) (lone : w.w1.run = 1 → w.w2.run = 0) :
    w.bytes (e :: rs) = rangeByte w.w1.run w.w1.color :: (w.shift e).bytes rs := by
  obtain ⟨emits, decided⟩ := decide_of_plain (w := w.shift e) h lone
  rw [Window.bytes_cons, emits, Window.push, decided, bytes_ignores_oldest]
  rfl

@[simp] theorem bytes_empty_placeholders (n : Nat) : Window.empty.bytes (List.replicate n .empty) = [] :=
  bytes_eq_nil_of_pixels rfl rfl (List.flatMap_eq_nil_iff.mpr fun r hr => by rw [List.eq_of_mem_replicate hr]; rfl)

end

/-- From any state in which an image may start, an image's bytes are its encoding, behind those already queued. -/
theorem bytesAfter_image_of_quiet {s : State} (quiet : s.seg.prev = Config.sent) (h1 : s.win.w1.run = 0)
    (h2 : s.win.w2.run = 0) (h3 : s.win.w3.run = 0) (p : List Index) :
    bytesAfter (p.map .pix ++ [.flush]) s = s.outQ ++ encodeImage p := by
  have alike : Window.empty.alike { s.win with w0 := .empty } :=
    ⟨Range.alike_refl _, .inr ⟨rfl, h1⟩, .inr ⟨rfl, h2⟩, .inr ⟨rfl, h3⟩⟩
  rw [bytesAfter_image, encodeImage_eq_bytes, segRanges_eq_ranges, ranges_of_quiet p quiet Segmenter.reset_prev,
    ← bytes_ignores_oldest s.win _ .empty, (pushes_alike alike _).1]

section
variable (a b : Index)

/-- A lone range goes out as its range byte. -/
theorem bytes_lone_range {r : RunLength} (h : r ≠ 0) :
    Window.empty.bytes ([⟨r, a⟩] ++ List.replicate 4 .empty) = [rangeByte r a] := by
  change Window.empty.bytes [⟨r, a⟩, .empty, .empty, .empty, .empty] = _
  rw [bytes_cons_of_empty _ _ rfl, bytes_cons_of_empty _ _ rfl, bytes_cons_of_empty _ _ rfl,
    bytes_cons_of_plain _ _ h fun _ => rfl]
  exact congrArg _ (bytes_empty_placeholders 1)

/-- Two ranges of which the first is no singleton go out as their range bytes. -/
theorem bytes_two_ranges {r q : RunLength} (hr : r ≠ 0) (long : r ≠ 1) (hq : q ≠ 0) :
    Window.empty.bytes ([⟨r, a⟩, ⟨q, b⟩] ++ List.replicate 4 .empty) = [rangeByte r a, rangeByte q b] := by
  change Window.empty.bytes [⟨r, a⟩, ⟨q, b⟩, .empty, .empty, .empty, .empty] = _
  rw [bytes_cons_of_empty _ _ rfl, bytes_cons_of_empty _ _ rfl, bytes_cons_of_empty _ _ rfl,
    bytes_cons_of_plain _ _ hr fun one => absurd one long, bytes_cons_of_plain _ _ hq fun _ => rfl]
  exact congrArg (_ :: _ :: ·) (bytes_empty_placeholders 1)

/-- Four alternating singletons go out as one pattern byte. -/
theorem bytes_alternating :
    Window.empty.bytes ([⟨1, a⟩, ⟨1, b⟩, ⟨1, a⟩, ⟨1, b⟩] ++ List.replicate 4 .empty) = [colourByte a true b] := by
  have full : (Window.mk ⟨1, a⟩ ⟨1, b⟩ ⟨1, a⟩ ⟨1, b⟩).alternates = true :=
    (alternates_iff _).mpr ⟨rfl, rfl, rfl, rfl, rfl, rfl⟩
  obtain ⟨emits, decided⟩ := decide_of_alternates full
  change Window.empty.bytes (⟨1, a⟩ :: ⟨1, b⟩ :: ⟨1, a⟩ :: ⟨1, b⟩ :: List.replicate 4 .empty) = _
  rw [bytes_cons_of_empty _ _ rfl, bytes_cons_of_empty _ _ rfl, bytes_cons_of_empty _ _ rfl, Window.bytes_cons]
  change (Window.mk ⟨1, a⟩ ⟨1, b⟩ ⟨1, a⟩ ⟨1, b⟩).emitted.toList ++
    (Window.mk ⟨1, a⟩ ⟨1, b⟩ ⟨1, a⟩ ⟨1, b⟩).decided.bytes (List.replicate 4 .empty) = _
  rw [emits, decided, bytes_empty_placeholders]
  rfl

/-- The ranges of `A B A B`, each pixel breaking the run before it. -/
theorem segRanges_alternating {a b : Index} (h : a ≠ b) : segRanges [a, b, a, b] = [⟨1, a⟩, ⟨1, b⟩, ⟨1, a⟩, ⟨1, b⟩] := by
  rw [segRanges_cons, ranges_pending_breaks _ _ (.inl h.symm), ranges_pending_breaks _ _ (.inl h),
    ranges_pending_breaks _ _ (.inl h.symm), ranges_pending_nil]

/-- The ranges of five `A` and a `B`. -/
theorem segRanges_five_then_one {a b : Index} (h : a ≠ b) : segRanges [a, a, a, a, a, b] = [⟨5, a⟩, ⟨1, b⟩] := by
  rw [segRanges_cons, ranges_pending_goes_on _ _ (by decide), ranges_pending_goes_on _ _ (by decide),
    ranges_pending_goes_on _ _ (by decide), ranges_pending_goes_on _ _ (by decide), ranges_pending_breaks _ _ (.inl h.symm),
    ranges_pending_nil]
  rfl

theorem encodeImage_one : encodeImage [a] = [rangeByte 1 a] := by
  rw [encodeImage_eq_bytes, segRanges_cons, ranges_pending_nil, bytes_lone_range a (by decide)]

theorem encodeImage_alternating {a b : Index} (h : a ≠ b) : encodeImage [a, b, a, b] = [colourByte a true b] := by
  rw [encodeImage_eq_bytes, segRanges_alternating h, bytes_alternating]

theorem encodeImage_five_then_one {a b : Index} (h : a ≠ b) :
    encodeImage [a, a, a, a, a, b] = [rangeByte 5 a, rangeByte 1 b] := by
  rw [encodeImage_eq_bytes, segRanges_five_then_one h, bytes_two_ranges a b (by decide) (by decide) (by decide)]

theorem encodeImage_twenty : encodeImage (List.replicate 20 a) = [rangeByte 15 a, rangeByte 5 a] := by
  have capped : segRanges (List.replicate 20 a) = [⟨15, a⟩, ⟨5, a⟩] := segCapSplitsRuns 20 a
  rw [encodeImage_eq_bytes, capped, bytes_two_ranges a a (by decide) (by decide) (by decide)]

end

/-- Settles O32: each example is one image from a quiet state, its bytes written as R65 and R66 lay them out. -/
theorem sourceExamplesEncode : Obligations.SourceExamplesEncode := by
  unfold Obligations.SourceExamplesEncode
  intro s a b quiet h1 h2 h3 h
  have image := bytesAfter_image_of_quiet quiet h1 h2 h3
  refine ⟨(image [a]).trans ?one, (image [a, b, a, b]).trans ?alternating,
    (image [a, a, a, a, a, b]).trans ?fiveThenOne, (List.map_replicate ▸ image (List.replicate 20 a)).trans ?twenty⟩
  case one => rw [encodeImage_one, rangeByte_eq_or]; rfl
  case alternating => rw [encodeImage_alternating h, colourByte_eq_or, if_pos rfl]
  case fiveThenOne => rw [encodeImage_five_then_one h, rangeByte_eq_or, rangeByte_eq_or]; rfl
  case twenty => rw [encodeImage_twenty, rangeByte_eq_or, rangeByte_eq_or]; rfl

end Sys2Proof.Machine
end

section
/-! The ports and one step (20_memory.md sections 1 and 2, 70_reset_and_hazards.md section 1): the outputs of a cycle, reset, the
transfers of an edge, and which operation the edge runs. -/

namespace Sys2Proof.Machine

/-! ### The outputs of a cycle -/

section
variable {e : Edge} {s : State}

/-- R44's third condition as a bound: an empty `out_q` is within it too, since `OUT_DEPTH` is at least 4 (R188). -/
theorem hasRoom_iff : s.hasRoom = true ↔ s.outQ.length + Config.maxStepBytes ≤ Config.outDepth := by
  rw [State.hasRoom, Bool.or_eq_true, decide_eq_true_iff, List.isEmpty_iff]
  refine ⟨fun h => h.elim (fun empty => ?_) id, .inr⟩
  rw [empty, List.length_nil, Config.outDepth]
  omega

theorem outValid_of_booted (hb : s.booted = true) : outValid e s = (!s.outQ.isEmpty && e.validDraw) := by
  rw [outValid, if_pos hb]

theorem idleOut_of_booted (hb : s.booted = true) : idleOut e s = s.idle := by rw [idleOut, if_pos hb]

theorem idle_iff : s.idle = true ↔ s.inProgress = none ∧ s.outQ = [] := by
  rw [State.idle, Bool.and_eq_true, Option.isNone_iff_eq_none, List.isEmpty_iff]

theorem idle_eq_false_of_outQ {b : Byte} {q : List Byte} (h : s.outQ = b :: q) : s.idle = false := by
  rw [State.idle, h, List.isEmpty_cons, Bool.and_false]

theorem outData_of_valid {b : Byte} {q : List Byte} (hb : s.booted = true) (valid : outValid e s = true)
    (h : s.outQ = b :: q) : outData e s = b := by
  simp [outData, hb, valid, h]

theorem outData_of_not_valid (h : (s.booted && outValid e s) = false) : outData e s = e.dataDraw := by
  rw [outData, h]

theorem inReady_eq_false (hb : s.booted = true)
    (h : ¬ (e.rst = false ∧ s.inProgress = none ∧ s.hasRoom = true ∧ e.readyDraw = true)) : inReady e s = false :=
  Bool.eq_false_iff.mpr (mt (inReady_iff e hb).mp h)

theorem transfers_iff : transfers e s = true ↔ outValid e s = true ∧ e.outReady = true ∧ e.rst = false := by
  rw [transfers, Bool.and_eq_true, Bool.and_eq_true, Bool.not_eq_true', and_assoc]

theorem accepts_iff : accepts e s = true ↔ e.inValid = true ∧ inReady e s = true ∧ e.rst = false := by
  rw [accepts, Bool.and_eq_true, Bool.and_eq_true, Bool.not_eq_true', and_assoc]

theorem transferOut_of_not (h : transfers e s = false) : transferOut e s = s := by
  rw [transferOut, h, if_neg Bool.false_ne_true]

theorem transferOut_of_transfers {b : Byte} {q : List Byte} (h : transfers e s = true) (hq : s.outQ = b :: q) :
    transferOut e s = (s.setOutQ q).log (.byte b) := by
  rw [transferOut, if_pos h, hq]

end

/-- Settles O35: each condition is one of those `in_ready` needs, and its draw is the only one left when they hold. -/
theorem inReadyRule : Obligations.InReadyRule := by
  unfold Obligations.InReadyRule
  intro e s hb
  refine ⟨fun rst => ?rst, fun busy => ?busy, fun full => ?full, fun rst free room => ?free⟩
  case rst => exact inReady_eq_false hb fun h => Bool.false_ne_true (h.1.symm.trans rst)
  case busy =>
    refine inReady_eq_false hb fun h => ?_
    rw [h.2.1] at busy
    exact Bool.false_ne_true busy
  case full => exact inReady_eq_false hb fun h => absurd (hasRoom_iff.mp h.2.2.1) (Nat.not_le.mpr full)
  case free =>
    rw [Bool.eq_iff_iff, inReady_iff e hb]
    exact ⟨fun h => h.2.2.2, fun draw => ⟨rst, free, hasRoom_iff.mpr room, draw⟩⟩

/-- Settles O36: `out_valid` speaks of a queue that is not empty, and a transfer takes its head. -/
theorem outPortRule : Obligations.OutPortRule := by
  unfold Obligations.OutPortRule
  intro e s hb
  refine ⟨fun valid => ?valid, fun blocked => ?blocked, fun notValid => ?data, fun queued => ?draw⟩
  case valid =>
    cases hq : s.outQ with
    | nil =>
      rw [outValid_of_booted hb, hq, List.isEmpty_nil, Bool.not_true, Bool.false_and] at valid
      exact absurd valid Bool.false_ne_true
    | cons b q =>
      exact ⟨b, q, rfl, outData_of_valid hb valid hq,
        fun ready rst => transferOut_of_transfers (transfers_iff.mpr ⟨valid, ready, rst⟩) hq⟩
  case blocked =>
    refine transferOut_of_not (Bool.eq_false_iff.mpr fun h => ?_)
    obtain ⟨valid, ready, rst⟩ := transfers_iff.mp h
    simp [valid, ready, rst] at blocked
  case data => exact outData_of_not_valid (by rw [notValid, Bool.and_false])
  case draw =>
    rw [outValid_of_booted hb, List.isEmpty_eq_false_iff.mpr queued, Bool.not_false, Bool.true_and]

/-- Settles O37: after the first reset `idle` shows the two registers, which reset empties. -/
theorem idleRule : Obligations.IdleRule := by
  unfold Obligations.IdleRule
  exact ⟨fun e s hb => by rw [idleOut_of_booted hb, idle_iff], fun e => rfl⟩

/-! ### Reset, and the time before it -/

/-- Settles O3: the reset values of R31, each in its field. -/
theorem resetCompletes : Obligations.ResetCompletes := by
  unfold Obligations.ResetCompletes
  exact exec_reset

/-- Watching `idle` records the cycle and does nothing else (R190). -/
theorem watchIdle_eq (e : Edge) (s : State) : watchIdle e s = { s with trace := s.traceAt e } := by
  rw [watchIdle, State.traceAt]
  split <;> rfl

/-- Settles O2: the step is the reset of the state in which the cycle and the reset are recorded. -/
theorem resetEdgeResetsTheBlock : Obligations.ResetEdgeResetsTheBlock := by
  unfold Obligations.ResetEdgeResetsTheBlock
  intro s e rest scheduled rst
  refine ⟨_, step_rst scheduled rst, rfl, rfl, rfl, rfl, ?_, ?_, rfl, fun _ => rfl⟩
  all_goals rw [watchIdle_eq]
  all_goals rfl

/-- Settles O53: every output of a cycle reads its draw, and the edge writes every register from its own. -/
theorem nothingIsSpecifiedBeforeReset : Obligations.NothingIsSpecifiedBeforeReset := by
  unfold Obligations.NothingIsSpecifiedBeforeReset
  intro s e hb
  have unbooted : ¬ s.booted = true := Bool.eq_false_iff.mp hb
  refine ⟨if_neg unbooted, if_neg unbooted, outData_of_not_valid (by rw [hb, Bool.false_and]), if_neg unbooted,
    fun rest scheduled rst => ⟨_, step_unbooted scheduled rst hb, ?_, ?_, rfl, rfl, rfl, rfl, rfl⟩⟩
  all_goals
    rw [unbootedEdge, State.setRegisters]
    cases transfers e (s.setPending rest) <;> cases accepts e (s.setPending rest) <;> simp [hb]

/-! ### Every operation and every step answers -/

theorem exec_total (i : Instr) (s : State) : ∃ t, exec i s = .next t := by
  cases i with
  | pix n => exact ⟨_, exec_pix s n⟩
  | flush => exact ⟨_, exec_flush s⟩
  | reset => exact ⟨_, exec_reset s⟩
  | segPix n => exact ⟨_, exec_segPix s n⟩
  | segFlush => exact ⟨_, exec_segFlush s⟩
  | cmpPh c => exact ⟨_, exec_cmpPh s c⟩
  | cmpRange r c => exact ⟨_, exec_cmpRange s r c⟩

theorem finishStep_total (e : Edge) (s : State) : ∃ t, finishStep e s = .next t := by
  obtain ⟨-, stays⟩ | ⟨w, -, -, completes⟩ := finishStep_cases e s
  · exact ⟨s, stays⟩
  · rw [completes]; exact exec_total _ _

theorem step_total (s : State) : ∃ t, step s = .next t := by
  obtain ⟨-, h⟩ | ⟨e, rest, -, -, h⟩ | ⟨e, rest, -, -, -, h⟩ | ⟨e, rest, -, -, -, h⟩ | ⟨w, rest, -, h⟩ | ⟨w, rest, -, h⟩ :=
    step_cases s
  · exact ⟨_, h⟩
  · exact ⟨_, h⟩
  · rw [h]; exact finishStep_total _ _
  · exact ⟨_, h⟩
  · rw [h]; exact exec_total _ _
  · rw [h]; exact exec_total _ _

/-- Settles O34: each operation has its equation, and each of a step's cases one of these or none. -/
theorem nothingEverStops : Obligations.NothingEverStops := by
  unfold Obligations.NothingEverStops
  exact ⟨exec_total, step_total⟩

/-! ### An edge of a block that has been reset -/

section
variable {e : Edge} {s u : State} {rest : List Drive} {w : InWord}

/-- `s` at its next edge, which the host has watched: the state the out port then acts on. -/
def State.watched (s : State) (e : Edge) (rest : List Drive) : State := { s with pending := rest, trace := s.traceAt e }

theorem step_edge_watched (hb : s.booted = true) (scheduled : s.pending = .edge e :: rest) (rst : e.rst = false) :
    step s = finishStep e (acceptIn e s (transferOut e (s.watched e rest))) := by
  rw [step_edge scheduled rst hb, watchIdle_eq]
  rfl

theorem acceptIn_of_accepts {s₀ : State} (h : accepts e s₀ = true) :
    acceptIn e s₀ u = (u.setInProgress (some (normalise e.inData))).log (.word e.inData) := if_pos h

theorem acceptIn_of_not {s₀ : State} (h : accepts e s₀ = false) : acceptIn e s₀ u = u :=
  if_neg (Bool.eq_false_iff.mp h)

theorem finishStep_of_done (h : u.inProgress = some w) (done : e.doneDraw = true) :
    finishStep e u = exec (decodeIn w) (u.setInProgress none) := by
  rw [finishStep, h, done]

theorem finishStep_of_not_done (done : e.doneDraw = false) : finishStep e u = .next u := by
  obtain ⟨-, stays⟩ | ⟨_, -, done', -⟩ := finishStep_cases e u
  · exact stays
  · exact absurd (done.symm.trans done') Bool.false_ne_true

theorem finishStep_of_none (h : u.inProgress = none) : finishStep e u = .next u := by
  rw [finishStep, h]

/-- The out port touches neither stage, nor the step in progress, nor the drives. -/
theorem transferOut_frame (e : Edge) (s : State) :
    (transferOut e s).seg = s.seg ∧ (transferOut e s).win = s.win ∧ (transferOut e s).bus = s.bus ∧
      (transferOut e s).inProgress = s.inProgress ∧ (transferOut e s).booted = s.booted ∧
      (transferOut e s).pending = s.pending := by
  rw [transferOut]
  split
  · cases s.outQ <;> exact ⟨rfl, rfl, rfl, rfl, rfl, rfl⟩
  · exact ⟨rfl, rfl, rfl, rfl, rfl, rfl⟩

@[simp] theorem transferOut_inProgress : (transferOut e s).inProgress = s.inProgress := by
  obtain ⟨-, -, -, inProgress, -⟩ := transferOut_frame e s
  exact inProgress

theorem not_accepts_of_inProgress (hb : s.booted = true) (h : s.inProgress = some w) : accepts e s = false :=
  Bool.eq_false_iff.mpr fun ha => by
    obtain ⟨-, ready, -⟩ := accepts_iff.mp ha
    obtain ⟨-, free, -⟩ := (inReady_iff e hb).mp ready
    cases h.symm.trans free

end

/-- Settles O38: the accepted word is in progress, normalised, and completes at the same edge. -/
theorem stepRunsTheAcceptedWord : Obligations.StepRunsTheAcceptedWord := by
  unfold Obligations.StepRunsTheAcceptedWord
  intro s e rest hb scheduled rst valid ready done
  refine ⟨_, rfl, ?_⟩
  rw [step_edge_watched hb scheduled rst, acceptIn_of_accepts (accepts_iff.mpr ⟨valid, ready, rst⟩),
    finishStep_of_done rfl done, decodeIn_normalise]
  rfl

/-- Settles O39: without the completion draw the accepted word stays in progress; with one in progress no word is accepted. -/
theorem stepInProgressCompletesLater : Obligations.StepInProgressCompletesLater := by
  unfold Obligations.StepInProgressCompletesLater
  refine ⟨fun s e rest hb scheduled rst valid ready done => ?accepted, fun s e rest w hb scheduled rst busy => ?later⟩
  case accepted =>
    refine ⟨_, normalise e.inData, rfl, decodeIn_normalise _, normalise_le _, ?_⟩
    rw [step_edge_watched hb scheduled rst, acceptIn_of_accepts (accepts_iff.mpr ⟨valid, ready, rst⟩),
      finishStep_of_not_done done]
    rfl
  case later =>
    have stillBusy : (transferOut e (s.watched e rest)).inProgress = some w := transferOut_inProgress.trans busy
    refine ⟨_, rfl, ?_⟩
    rw [step_edge_watched hb scheduled rst, acceptIn_of_not (not_accepts_of_inProgress hb busy)]
    cases done : e.doneDraw with
    | true => rw [if_pos rfl, finishStep_of_done stillBusy done]; rfl
    | false => rw [if_neg Bool.false_ne_true, finishStep_of_not_done done]; rfl

/-- With no word accepted and none in progress only the out port acts. -/
theorem step_without_word {s : State} {e : Edge} {rest : List Drive} (hb : s.booted = true)
    (scheduled : s.pending = .edge e :: rest) (rst : e.rst = false) (quiet : accepts e s = false)
    (free : s.inProgress = none) : step s = .next (transferOut e (s.watched e rest)) := by
  have stillFree : (transferOut e (s.watched e rest)).inProgress = none := transferOut_inProgress.trans free
  rw [step_edge_watched hb scheduled rst, acceptIn_of_not quiet, finishStep_of_none stillFree]

/-- Settles O42: the out port's two answers. -/
theorem nothingWithoutAWord : Obligations.NothingWithoutAWord := by
  unfold Obligations.NothingWithoutAWord
  intro s e rest hb scheduled rst noWord free
  have quiet : accepts e s = false := Bool.eq_false_iff.mpr fun ha => by
    obtain ⟨valid, ready, -⟩ := accepts_iff.mp ha
    simp [valid, ready] at noWord
  obtain ⟨seg, win, bus, inProgress, -, pending⟩ := transferOut_frame e (s.watched e rest)
  refine ⟨_, step_without_word hb scheduled rst quiet free, seg, win, inProgress.trans free, bus, pending, ?_⟩
  obtain ⟨-, same⟩ | ⟨b, q, -, queued, taken⟩ := transferOut_cases e (s := s.watched e rest) hb
  · exact .inl (by rw [same]; exact ⟨rfl, rfl⟩)
  · exact .inr ⟨b, by rw [taken]; exact ⟨queued, rfl⟩⟩

/-! ### Operations and the record -/

/-- No operation reads the record, or writes it. -/
theorem exec_with_trace {i : Instr} {s t : State} (h : exec i s = .next t) (tr : List PortEvent) :
    exec i { s with trace := tr } = .next { t with trace := tr } := by
  cases i with
  | pix n => rw [exec_pix_eq_topStep] at h ⊢; cases h; rfl
  | flush => rw [exec_flush_eq_topStep] at h ⊢; cases h; rfl
  | reset | segPix | segFlush | cmpPh | cmpRange => cases h; rfl

theorem exec_trace {i : Instr} {s t : State} (h : exec i s = .next t) : t.trace = s.trace := by
  have same : exec i s = .next { t with trace := s.trace } := exec_with_trace h s.trace
  exact (congrArg State.trace (Host.Outcome.next.inj (h.symm.trans same)) :)

/-- Offering a word asks nothing of the out port. -/
theorem transferOut_offerEdge (x : InWord) (s : State) : transferOut (offerEdge x) s = s :=
  transferOut_of_not (Bool.eq_false_iff.mpr fun h => absurd (transfers_iff.mp h).2.1 Bool.false_ne_true)

/-- Settles O40: at each level the drive presents the operation's own word, which the level's decoder reads back. -/
theorem presentedOperationRuns : Obligations.PresentedOperationRuns := by
  unfold Obligations.PresentedOperationRuns
  intro i s rest wf scheduled canTake
  obtain ⟨t, run⟩ := exec_total i { s with pending := rest }
  have recorded := exec_with_trace run
  rw [driveOf] at scheduled
  cases level : i.level with
  | inPort =>
    rw [level] at scheduled
    obtain ⟨hb, free, room⟩ := canTake level
    have ready : inReady (offerEdge ((encode i).extractLsb' 0 4)) s = true := (inReady_iff _ hb).mpr ⟨rfl, free, room, rfl⟩
    obtain ⟨u, taken, answer⟩ := stepRunsTheAcceptedWord s _ rest hb scheduled rfl rfl ready rfl
    obtain rfl := (transferOut_offerEdge _ _).symm.trans taken
    have alone := recorded (.word ((encode i).extractLsb' 0 4) :: s.traceAt (offerEdge ((encode i).extractLsb' 0 4)))
    change step s = exec (decodeIn ((encode i).extractLsb' 0 4)) _ at answer
    rw [decodeIn_encode level, ← free] at answer
    exact ⟨t, _, run, answer.trans alone, rfl, rfl⟩
  | rstPin =>
    rw [level] at scheduled
    obtain rfl := eq_reset_of_level level
    have answer := step_rst scheduled rfl
    rw [watchIdle_eq] at answer
    exact ⟨t, _, run, answer.trans (recorded (.rst :: s.traceAt resetEdge)), rfl, rfl⟩
  | segmenter =>
    rw [level] at scheduled
    have answer := step_cons scheduled
    rw [runDrive, decodeSeg_encode level] at answer
    exact ⟨t, t, run, answer.trans run, rfl, (exec_trace run :)⟩
  | compactor =>
    rw [level] at scheduled
    have answer := step_cons scheduled
    rw [runDrive, decodeBus_encode level wf] at answer
    exact ⟨t, t, run, answer.trans run, rfl, (exec_trace run :)⟩

/-- Settles O41: the out port takes the head first, and the step appends to what is left. -/
theorem bothTransfersAtOneEdge : Obligations.BothTransfersAtOneEdge := by
  unfold Obligations.BothTransfersAtOneEdge
  intro s e rest b q i hb scheduled rst done queued valid ready h
  have notIdle : s.traceAt e = s.trace := by
    rw [State.traceAt, idleOut_of_booted hb, idle_eq_false_of_outQ queued, if_neg Bool.false_ne_true]
  have taken : transferOut e (s.watched e rest) = { s with pending := rest, outQ := q, trace := .byte b :: s.trace } := by
    rw [transferOut_of_transfers (s := s.watched e rest) (transfers_iff.mpr ⟨valid, ready, rst⟩) queued, State.watched, notIdle]
    rfl
  obtain ⟨inValid, inReady, rfl⟩ | ⟨w, busy, rfl⟩ := h
  · obtain ⟨_, rfl, answer⟩ := stepRunsTheAcceptedWord s e rest hb scheduled rst inValid inReady done
    change step s = exec _ { transferOut e (s.watched e rest) with
      inProgress := none, trace := _ :: (transferOut e (s.watched e rest)).trace } at answer
    rw [taken, exec_decodeIn] at answer
    exact ⟨_, _, _, answer, exec_decodeIn _ _, rfl, rfl, rfl, rfl, rfl, List.suffix_cons _ _⟩
  · obtain ⟨_, rfl, answer⟩ := stepInProgressCompletesLater.2 s e rest w hb scheduled rst busy
    change step s =
      if e.doneDraw = true then exec _ { transferOut e (s.watched e rest) with inProgress := none } else _ at answer
    rw [taken, done, if_pos rfl, exec_decodeIn] at answer
    exact ⟨_, _, _, answer, exec_decodeIn _ _, rfl, rfl, rfl, rfl, rfl, List.suffix_rfl⟩

end Sys2Proof.Machine
end

section
/-! The record of the ports since the last reset (20_memory.md section 1): what each event adds to the words accepted and to the
bytes transferred. -/

namespace Sys2Proof.Machine

section
variable (s : State) (ev : PortEvent) (b : Byte) (x : InWord)

theorem sinceReset_log {ev : PortEvent} (h : ev ≠ .rst) : (s.log ev).sinceReset = s.sinceReset ++ [ev] := by
  rw [State.sinceReset, State.log_trace, List.takeWhile_cons, if_pos (bne_iff_ne.mpr h), List.reverse_cons]
  rfl

@[simp] theorem sinceReset_log_rst : (s.log .rst).sinceReset = [] := by
  rw [State.sinceReset, State.log_trace, List.takeWhile_cons, if_neg (by simp), List.reverse_nil]

theorem wordsIn_log {ev : PortEvent} (h : ev ≠ .rst) : (s.log ev).wordsIn = s.wordsIn ++ ev.word?.toList := by
  rw [State.wordsIn, sinceReset_log s h, List.filterMap_append, State.wordsIn]
  cases ev <;> rfl

theorem bytesOut_log {ev : PortEvent} (h : ev ≠ .rst) : (s.log ev).bytesOut = s.bytesOut ++ ev.byte?.toList := by
  rw [State.bytesOut, sinceReset_log s h, List.filterMap_append, State.bytesOut]
  cases ev <;> rfl

@[simp] theorem wordsIn_log_idle : (s.log .idle).wordsIn = s.wordsIn :=
  (wordsIn_log s PortEvent.noConfusion).trans (List.append_nil _)

@[simp] theorem wordsIn_log_byte : (s.log (.byte b)).wordsIn = s.wordsIn :=
  (wordsIn_log s PortEvent.noConfusion).trans (List.append_nil _)

@[simp] theorem wordsIn_log_word : (s.log (.word x)).wordsIn = s.wordsIn ++ [x] := wordsIn_log s PortEvent.noConfusion

@[simp] theorem bytesOut_log_idle : (s.log .idle).bytesOut = s.bytesOut :=
  (bytesOut_log s PortEvent.noConfusion).trans (List.append_nil _)

@[simp] theorem bytesOut_log_byte : (s.log (.byte b)).bytesOut = s.bytesOut ++ [b] := bytesOut_log s PortEvent.noConfusion

@[simp] theorem bytesOut_log_word : (s.log (.word x)).bytesOut = s.bytesOut :=
  (bytesOut_log s PortEvent.noConfusion).trans (List.append_nil _)

end

section
variable (s : State) (q : List Byte) (x : InWord)

@[simp] theorem bytesOut_setOutQ : (s.setOutQ q).bytesOut = s.bytesOut := rfl

/-- A byte that leaves `out_q` for the host stays among the bytes emitted (R42). -/
theorem emittedBytes_take {s : State} {b : Byte} {q : List Byte} (h : s.outQ = b :: q) :
    ((s.setOutQ q).log (.byte b)).emittedBytes = s.emittedBytes := by
  simp [State.emittedBytes, h]

/-- A step's bytes are emitted behind all others. -/
theorem emittedBytes_topStep :
    (topStep x s).emittedBytes = s.emittedBytes ++ s.win.bytes (s.seg.pushes x) := (List.append_assoc _ _ _).symm

@[simp] theorem emittedBytes_log_idle : (s.log .idle).emittedBytes = s.emittedBytes := by simp [State.emittedBytes]
@[simp] theorem emittedBytes_log_word : (s.log (.word x)).emittedBytes = s.emittedBytes := by simp [State.emittedBytes]

end

/-! ### Words done, and the word in progress -/

section
variable {s : State} {w : InWord}

theorem wordsDone_of_none (h : s.inProgress = none) : s.wordsDone = s.wordsIn := by
  rw [State.wordsDone, h]; rfl

theorem tracked_of_none (h : s.inProgress = none) : s.tracked := fun w hw => by cases h.symm.trans hw

@[simp] theorem normalise_normalise (x : InWord) : normalise (normalise x) = normalise x := by revert x; decide

/-- The word in progress is the one accepted last, and all before it are done. -/
theorem wordsIn_of_tracked (h : s.tracked) (busy : s.inProgress = some w) :
    ∃ x, normalise x = w ∧ s.wordsIn = s.wordsDone ++ [x] := by
  obtain ⟨x, last, norm⟩ := h w busy
  refine ⟨x, norm, ?_⟩
  rw [State.wordsDone, busy, Option.isSome_some, if_pos rfl]
  exact (List.dropLast_append_getLast? x last).symm

section
variable (x : InWord)

theorem tracked_accept : ((s.setInProgress (some (normalise x))).log (.word x)).tracked := by
  intro w hw
  exact ⟨x, by rw [wordsIn_log_word, List.getLast?_concat], Option.some.inj hw⟩

theorem wordsDone_accept (free : s.inProgress = none) :
    ((s.setInProgress (some (normalise x))).log (.word x)).wordsDone = s.wordsDone := by
  rw [wordsDone_of_none free, State.wordsDone, wordsIn_log_word, List.dropLast_concat]
  rfl

end

/-- Completing the step in progress makes its word the last one done. -/
theorem wordsDone_complete (h : s.tracked) (busy : s.inProgress = some w) :
    ∃ x, normalise x = w ∧ (topStep w (s.setInProgress none)).wordsDone = s.wordsDone ++ [x] := by
  obtain ⟨x, norm, words⟩ := wordsIn_of_tracked h busy
  exact ⟨x, norm, (wordsDone_of_none rfl).trans words⟩

end

end Sys2Proof.Machine
end

section
/-! The invariants of a block that has been reset once and is driven by its ports only: what each thing that can happen at an edge
keeps, and so every step (10_state.md, 20_memory.md, 30_encoding.md section 4, 42_top_level.md, 70_reset_and_hazards.md). -/

namespace Sys2Proof.Machine

/-! ### The events of an edge -/

/-- What an edge without reset of a booted block is made of keeps `P`: the host sees `idle`, a byte is transferred, a word is
accepted, the step in progress completes. -/
structure KeptByEdge (P : State → Prop) : Prop where
  idle : ∀ {s}, P s → P (s.log .idle)
  take : ∀ {s b q}, P s → s.outQ = b :: q → P ((s.setOutQ q).log (.byte b))
  accept : ∀ {s} (x : InWord), P s → s.inProgress = none → s.hasRoom = true →
    P ((s.setInProgress (some (normalise x))).log (.word x))
  complete : ∀ {s w}, P s → s.inProgress = some w → P (topStep (normalise w) (s.setInProgress none))

/-- So do the rest of what the ports can do: drives leave the schedule, and reset. -/
structure KeptByPorts (P : State → Prop) : Prop extends KeptByEdge P where
  schedule : ∀ {s ds}, P s → (∀ d ∈ ds, d ∈ s.pending) → P (s.setPending ds)
  reset : ∀ {s}, P s → P (resetBlock (s.log .rst))

/-- A byte taken leaves no less room. -/
theorem hasRoom_transferOut (e : Edge) {s : State} (hb : s.booted = true) (room : s.hasRoom = true) :
    (transferOut e s).hasRoom = true := by
  obtain ⟨-, same⟩ | ⟨b, q, -, queued, taken⟩ := transferOut_cases e hb
  · rwa [same]
  · have bound := hasRoom_iff.mp room
    rw [queued, List.length_cons] at bound
    rw [taken]
    exact hasRoom_iff.mpr (by change q.length + _ ≤ _; omega)

section
variable {P : State → Prop} (hP : KeptByEdge P) (e : Edge) {s t u : State}
include hP

theorem KeptByEdge.watchIdle (h : P s) : P (watchIdle e s) := by
  obtain ⟨-, same⟩ | ⟨-, seen⟩ := watchIdle_cases e s
  · rwa [same]
  · rw [seen]; exact hP.idle h

theorem KeptByEdge.transferOut (hb : s.booted = true) (h : P s) : P (transferOut e s) := by
  obtain ⟨-, same⟩ | ⟨b, q, -, queued, taken⟩ := transferOut_cases e hb
  · rwa [same]
  · rw [taken]; exact hP.take h queued

theorem KeptByEdge.finishStep (h : P s) (run : finishStep e s = .next t) : P t := by
  obtain ⟨-, stays⟩ | ⟨w, busy, -, completes⟩ := finishStep_cases e s
  · cases stays.symm.trans run; exact h
  · rw [completes, exec_decodeIn] at run
    cases run
    exact hP.complete h busy

/-- From the out port's transfer on. -/
theorem KeptByEdge.afterTransfer (hb : s.booted = true) (h : P (Machine.transferOut e (Machine.watchIdle e s)))
    (run : Machine.finishStep e (acceptIn e s (Machine.transferOut e (Machine.watchIdle e s))) = .next t) : P t := by
  refine hP.finishStep e ?_ run
  obtain ⟨-, same⟩ | ⟨accepted, taken⟩ := acceptIn_cases e s (Machine.transferOut e (Machine.watchIdle e s))
  · rwa [same]
  · obtain ⟨-, ready, -⟩ := accepts_iff.mp accepted
    obtain ⟨-, free, room, -⟩ := (inReady_iff e hb).mp ready
    have hb' : (Machine.watchIdle e s).booted = true := (watchIdle_booted e s).trans hb
    have room' : (Machine.watchIdle e s).hasRoom = true := by rwa [State.hasRoom, watchIdle_outQ]
    rw [taken]
    exact hP.accept _ h (by rw [transferOut_inProgress, watchIdle_inProgress, free]) (hasRoom_transferOut e hb' room')

/-- The whole edge. -/
theorem KeptByEdge.edge (hb : s.booted = true) (h : P s)
    (run : Machine.finishStep e (acceptIn e s (Machine.transferOut e (Machine.watchIdle e s))) = .next t) : P t :=
  hP.afterTransfer e hb (hP.transferOut e ((watchIdle_booted e s).trans hb) (hP.watchIdle e h)) run

end

/-- Every step of a booted block driven by its ports only. -/
theorem KeptByPorts.step {P : State → Prop} (hP : KeptByPorts P) {s t : State} (hb : s.booted = true)
    (ports : s.portsOnly) (h : P s) (run : step s = .next t) : P t := by
  have dropped : ∀ {d : Drive} {rest : List Drive}, s.pending = d :: rest → P (s.setPending rest) := fun scheduled =>
    hP.schedule h fun d hd => scheduled ▸ List.mem_cons_of_mem _ hd
  obtain ⟨-, answer⟩ | ⟨e, rest, scheduled, -, answer⟩ | ⟨e, rest, scheduled, -, -, answer⟩ | ⟨e, rest, -, -, unbooted, -⟩ |
    ⟨w, rest, scheduled, -⟩ | ⟨w, rest, scheduled, -⟩ := step_cases s
  · cases answer.symm.trans run; exact h
  · cases answer.symm.trans run
    exact hP.reset (hP.watchIdle e (dropped scheduled))
  · exact hP.edge e (s := s.setPending rest) hb (dropped scheduled) (answer.symm.trans run)
  · exact absurd (hb.symm.trans unbooted) Bool.noConfusion
  · obtain ⟨e, noEdge⟩ := ports (.seg w) (scheduled ▸ List.mem_cons_self)
    cases noEdge
  · obtain ⟨e, noEdge⟩ := ports (.cmp w) (scheduled ▸ List.mem_cons_self)
    cases noEdge

theorem booted_keptByPorts : KeptByPorts (fun s => s.booted = true) where
  schedule h _ := h
  reset _ := rfl
  idle h := h
  take h _ := h
  accept _ h _ _ := h
  complete h _ := h

theorem portsOnly_keptByPorts : KeptByPorts State.portsOnly where
  schedule h sub d hd := h d (sub d hd)
  reset h := h
  idle h := h
  take h _ := h
  accept _ h _ _ := h
  complete h _ := h

/-! ### Just after reset -/

/-- Every register at its reset value, and nothing recorded since the last reset. -/
structure State.fresh (s : State) : Prop where
  seg : s.seg = .reset
  win : s.win = .empty
  outQ : s.outQ = []
  bus : s.bus = none
  inProgress : s.inProgress = none
  sinceReset : s.sinceReset = []

theorem fresh_reset : State.reset.fresh := ⟨rfl, rfl, rfl, rfl, rfl, rfl⟩

theorem fresh_resetBlock (s : State) : (resetBlock (s.log .rst)).fresh := ⟨rfl, rfl, rfl, rfl, rfl, sinceReset_log_rst s⟩

section
variable {s : State} (h : s.fresh)
include h

theorem State.fresh.wordsIn : s.wordsIn = [] := by rw [State.wordsIn, h.sinceReset]; rfl
theorem State.fresh.bytesOut : s.bytesOut = [] := by rw [State.bytesOut, h.sinceReset]; rfl
theorem State.fresh.wordsDone : s.wordsDone = [] := (wordsDone_of_none h.inProgress).trans h.wordsIn
theorem State.fresh.emittedBytes : s.emittedBytes = [] := by rw [State.emittedBytes, h.bytesOut, h.outQ]; rfl

theorem State.fresh.kept : s.kept := by
  refine ⟨?_, ?_, ?_, fun _ => h.win, h.bus, fun w hw => ?_⟩
  · rw [h.seg]; decide
  · rw [h.seg]; decide
  · rw [h.win]; rfl
  · cases h.inProgress.symm.trans hw

theorem State.fresh.splitOnly : s.splitOnly := by
  rw [State.splitOnly, h.win]
  exact ⟨fun filled => absurd rfl filled, fun filled => absurd rfl filled, fun filled => absurd rfl filled⟩

theorem State.fresh.cleanOutput : s.cleanOutput := by
  rw [State.cleanOutput, h.emittedBytes]
  exact fun b hb => absurd hb List.not_mem_nil

theorem State.fresh.bounded : s.bounded := by
  rw [State.bounded, h.outQ, h.inProgress]
  exact ⟨Nat.zero_le _, fun busy => absurd busy Bool.false_ne_true⟩

theorem State.fresh.accounted : s.accounted := by
  refine ⟨by rw [h.win]; rfl, tracked_of_none h.inProgress, ?_⟩
  rw [h.emittedBytes, h.wordsDone, held_of_quiet (by rw [h.seg]; rfl) h.win]
  rfl

theorem State.fresh.replayed : s.replayed := by
  refine ⟨tracked_of_none h.inProgress, State.reset, ?_, h.seg.symm, h.win.symm, h.emittedBytes.symm⟩
  rw [h.wordsDone]
  rfl

end

/-! ### The registers in their ranges -/

/-- The registers after a step depend on the state before it only through what the pushes leave in `w[0]`. -/
theorem kept_complete {s : State} {w : InWord} (h : s.kept) : (topStep (normalise w) (s.setInProgress none)).kept := by
  obtain ⟨-, -, oldest, -⟩ := h
  refine ⟨?_, next_count_ne_zero _ _, pushAll_w0_run oldest _, fun quiet => ?_, rfl, fun _ busy => by cases busy⟩
  · rw [topStep_seg, next_prev]; exact normalise_le w
  · rw [topStep_seg, next_prev] at quiet
    rw [topStep_win, quiet, pushAll_pushes_sent]

theorem kept_keptByPorts : KeptByPorts State.kept where
  schedule h _ := h
  reset {s} _ := (fresh_resetBlock s).kept
  idle h := h
  take h _ := h
  accept x h _ _ := by
    obtain ⟨prev, count, oldest, quiet, bus, -⟩ := h
    exact ⟨prev, count, oldest, quiet, bus, fun w hw => by cases hw; exact normalise_le x⟩
  complete h _ := kept_complete h

/-- Settles O46: every event of an edge keeps the ranges, and a step completes on a normalised word. -/
theorem stepKeepsRegisterRanges : Obligations.StepKeepsRegisterRanges := by
  unfold Obligations.StepKeepsRegisterRanges
  intro s t hb ports kept run
  exact ⟨booted_keptByPorts.step hb ports hb run, portsOnly_keptByPorts.step hb ports ports run,
    kept_keptByPorts.step hb ports kept run⟩

/-! ### The queue -/

theorem bounded_keptByPorts : KeptByPorts State.bounded where
  schedule h _ := h
  reset {s} _ := (fresh_resetBlock s).bounded
  idle h := h
  take {s b q} h queued := by
    obtain ⟨capacity, room⟩ := h
    rw [queued, List.length_cons] at capacity room
    exact ⟨Nat.le_of_succ_le capacity, fun busy => Nat.le_trans (by change q.length + _ ≤ _; omega) (room busy)⟩
  accept {s} x h _ room := ⟨h.1, fun _ => hasRoom_iff.mp room⟩
  complete {s w} h busy := by
    have room := h.2 (by rw [busy]; rfl)
    have emitted := length_bytes_pushes_le s.win s.seg w
    refine ⟨?_, fun busy => absurd busy Bool.false_ne_true⟩
    rw [topStep_outQ, List.length_append]
    exact (Nat.add_le_add_left emitted _).trans room

/-- Settles O48: a word is accepted with room for a whole step, and a step emits no more than that. -/
theorem stepKeepsQueueBounded : Obligations.StepKeepsQueueBounded := by
  unfold Obligations.StepKeepsQueueBounded
  exact fun s t hb ports bounded run => bounded_keptByPorts.step hb ports bounded run

/-! ### Pixels -/

theorem accounted_keptByPorts : KeptByPorts State.accounted where
  schedule h _ := h
  reset {s} _ := (fresh_resetBlock s).accounted
  idle {s} h := by
    obtain ⟨oldest, tracked, account⟩ := h
    refine ⟨oldest, fun w hw => by rw [wordsIn_log_idle]; exact tracked w hw, ?_⟩
    rw [emittedBytes_log_idle, State.wordsDone, wordsIn_log_idle]
    exact account
  take {s b q} h queued := by
    obtain ⟨oldest, tracked, account⟩ := h
    refine ⟨oldest, fun w hw => by rw [wordsIn_log_byte]; exact tracked w hw, ?_⟩
    rw [emittedBytes_take queued, State.wordsDone, wordsIn_log_byte]
    exact account
  accept {s} x h free _ := by
    obtain ⟨oldest, -, account⟩ := h
    refine ⟨oldest, tracked_accept x, ?_⟩
    rw [emittedBytes_log_word, wordsDone_accept x free]
    exact account
  complete {s w} h busy := by
    obtain ⟨oldest, tracked, account⟩ := h
    obtain ⟨x, rfl, words⟩ := wordsDone_complete tracked busy
    have conserved := topStep_conserves_pixels (s := s.setInProgress none) oldest x
    rw [normalise_normalise]
    refine ⟨pushAll_w0_run oldest _, tracked_of_none rfl, ?_⟩
    rw [emittedBytes_topStep, decodeBytes_append, List.append_assoc, conserved, ← List.append_assoc, words, pixelsOf_append,
      ← account]
    rfl

/-- Settles O49: only a completed step changes the account, and it conserves its own word's pixels. -/
theorem stepKeepsPixelAccount : Obligations.StepKeepsPixelAccount := by
  unfold Obligations.StepKeepsPixelAccount
  exact fun s t hb ports accounted run => accounted_keptByPorts.step hb ports accounted run

/-- Settles O51: with nothing in progress, queued or pending, the account's bytes are those transferred and no pixel is held. -/
theorem idleAfterFlushIsComplete : Obligations.IdleAfterFlushIsComplete := by
  unfold Obligations.IdleAfterFlushIsComplete
  intro s kept accounted idle quiet
  obtain ⟨-, -, -, drained, -⟩ := kept
  obtain ⟨-, -, account⟩ := accounted
  obtain ⟨free, empty⟩ := idle_iff.mp idle
  rwa [State.emittedBytes, empty, List.append_nil, held_of_quiet quiet (drained quiet), List.append_nil,
    wordsDone_of_none free] at account

/-! ### Replay -/

theorem replayed_keptByPorts : KeptByPorts State.replayed where
  schedule h _ := h
  reset {s} _ := (fresh_resetBlock s).replayed
  idle {s} h := by
    obtain ⟨tracked, t, run, seg, win, outQ⟩ := h
    refine ⟨fun w hw => by rw [wordsIn_log_idle]; exact tracked w hw, t, ?_, seg, win, ?_⟩
    · rw [State.wordsDone, wordsIn_log_idle]; exact run
    · rw [emittedBytes_log_idle, outQ]
  take {s b q} h queued := by
    obtain ⟨tracked, t, run, seg, win, outQ⟩ := h
    refine ⟨fun w hw => by rw [wordsIn_log_byte]; exact tracked w hw, t, ?_, seg, win, ?_⟩
    · rw [State.wordsDone, wordsIn_log_byte]; exact run
    · rw [emittedBytes_take queued, outQ]
  accept {s} x h free _ := by
    obtain ⟨-, t, run, seg, win, outQ⟩ := h
    refine ⟨tracked_accept x, t, ?_, seg, win, ?_⟩
    · rw [wordsDone_accept x free]; exact run
    · rw [emittedBytes_log_word]; exact outQ
  complete {s w} h busy := by
    obtain ⟨tracked, t, run, seg, win, outQ⟩ := h
    obtain ⟨x, rfl, words⟩ := wordsDone_complete tracked busy
    rw [normalise_normalise]
    refine ⟨tracked_of_none rfl, topStep (normalise x) t, ?_, ?_, ?_, ?_⟩
    · rw [words, List.map_append, execAll_append run, List.map_singleton, execAll_cons (exec_decodeIn t x)]
      rfl
    · rw [topStep_seg, topStep_seg, seg]; rfl
    · rw [topStep_win, topStep_win, seg, win]; rfl
    · rw [topStep_outQ, emittedBytes_topStep, seg, win, outQ]; rfl

/-- Settles O50: the completed step does to the replayed state what it does to the block. -/
theorem stepKeepsReplay : Obligations.StepKeepsReplay := by
  unfold Obligations.StepKeepsReplay
  exact fun s t hb ports replayed run => replayed_keptByPorts.step hb ports replayed run

/-! ### Clean output (R69, R70) -/

/-- Of two neighbouring ranges the older, if they share a colour, is a full run: the cap split them (R89). -/
def Range.apart (a b : Range) : Prop := a.run ≠ 0 → b.run ≠ 0 → a.color = b.color → a.run = 15

/-- `State.splitOnly` as far as it is about the window; case 2 may have taken one pixel of `w[1]` (R112). -/
def Window.spaced (w : Window) : Prop :=
  (w.w1.run ≠ 0 → w.w2.run ≠ 0 → w.w1.color = w.w2.color → 14 ≤ w.w1.run.toNat) ∧ w.w2.apart w.w3

theorem apart_of_run_zero_left {a : Range} (h : a.run = 0) (b : Range) : a.apart b := fun filled => absurd h filled

theorem apart_of_run_zero_right (a : Range) {b : Range} (h : b.run = 0) : a.apart b := fun _ filled => absurd h filled

theorem emittable_colourByte {a b : Index} (h : a ≠ b) (k : Bool) : emittable (colourByte a k b) := by
  rw [emittable, byteTag_colourByte, if_neg Bool.false_ne_true, byteFirst_colourByte, byteSecond_colourByte]
  exact h

theorem emittable_rangeByte {r : RunLength} (h : r ≠ 0) (c : Index) : emittable (rangeByte r c) := by
  rw [emittable, byteTag_rangeByte, if_pos rfl, byteRun_rangeByte]
  exact h

section
variable {w : Window} (spaced : w.spaced) {e : Range}
include spaced

/-- A singleton in `w[1]` is not behind one of its own colour. -/
theorem color_ne_of_singleton (one : w.w1.run = 1) (filled : w.w2.run ≠ 0) : w.w1.color ≠ w.w2.color := fun same => by
  have long := spaced.1 (one ▸ by decide) filled same
  rw [one] at long
  exact absurd long (by decide)

/-- What one push emits into a spaced window's stream. -/
theorem emittable_of_emitted {b : Byte} (h : (w.shift e).emitted = some b) : emittable b := by
  obtain ⟨ha, emits, -⟩ | ⟨-, one, filled, emits, -⟩ | ⟨-, filled, -, emits, -⟩ | ⟨-, emits, -⟩ := decide_cases (w.shift e)
  · obtain ⟨one, next, -⟩ := (alternates_iff _).mp ha
    have filled : w.w2.run ≠ 0 := (show w.w2.run = 1 from next) ▸ by decide
    obtain rfl := Option.some.inj (emits.symm.trans h)
    exact emittable_colourByte (color_ne_of_singleton spaced one filled) true
  · obtain rfl := Option.some.inj (emits.symm.trans h)
    exact emittable_colourByte (color_ne_of_singleton spaced one filled) false
  · obtain rfl := Option.some.inj (emits.symm.trans h)
    exact emittable_rangeByte filled _
  · cases emits.symm.trans h

/-- A push keeps the window spaced, if the range pushed is apart from the newest slot. -/
theorem push_spaced (h : w.w3.apart e) : (w.push e).spaced := by
  obtain ⟨-, older⟩ := spaced
  obtain ⟨w2, w3⟩ | ⟨w2, w3⟩ := decided_newer (w.shift e)
  · have empty2 : (w.push e).w2.run = 0 := congrArg Range.run w2
    exact ⟨fun _ filled => absurd empty2 filled, apart_of_run_zero_left empty2 _⟩
  · have same2 : (w.push e).w2 = w.w3 := w2
    have same3 : (w.push e).w3 = e := w3
    rw [Window.spaced, same2, same3]
    refine ⟨fun filled filled' same => ?_, h⟩
    obtain w1 | ⟨positive, w1⟩ | w1 := decided_w1 (w.shift e)
    · exact absurd (congrArg Range.run w1) filled
    · have taken : (w.push e).w1 = { w.w2 with run := w.w2.run - 1 } := w1
      rw [taken] at same ⊢
      have full : w.w2.run = 15 := older positive filled' same
      change 14 ≤ (w.w2.run - 1).toNat
      rw [full]
      decide
    · have kept : (w.push e).w1 = w.w2 := w1
      rw [kept] at same filled ⊢
      rw [older filled filled' same]
      decide

omit spaced in
/-- After a push the newest slot is the range pushed, or empty. -/
theorem push_w3 (w : Window) (e : Range) : (w.push e).w3 = e ∨ (w.push e).w3 = .empty := by
  obtain ⟨-, emptied⟩ | ⟨-, same⟩ := decided_newer (w.shift e)
  · exact .inr emptied
  · exact .inl same

/-- Pushing ranges each apart from the one before it emits clean bytes and keeps the window spaced. -/
theorem pushAll_clean {rs : List Range} (chain : (w.w3 :: rs).IsChain Range.apart) :
    (∀ b ∈ w.bytes rs, emittable b) ∧ (w.pushAll rs).spaced := by
  induction rs generalizing w with
  | nil => exact ⟨fun b hb => absurd hb List.not_mem_nil, spaced⟩
  | cons e rs ih =>
    obtain ⟨first, chain⟩ := List.isChain_cons_cons.mp chain
    have chain' : ((w.push e).w3 :: rs).IsChain Range.apart := by
      obtain same | emptied := push_w3 w e
      · rwa [same]
      · exact List.isChain_cons.mpr
          ⟨fun y _ => apart_of_run_zero_left (congrArg Range.run emptied) y, (List.isChain_cons.mp chain).2⟩
    obtain ⟨clean, spaced'⟩ := ih (push_spaced spaced first) chain'
    exact ⟨List.forall_mem_append.mpr ⟨fun b hb => emittable_of_emitted spaced (Option.mem_toList.mp hb), clean⟩, spaced'⟩

end

/-- The ranges a word makes the compactor take, behind a slot apart from the pending run. -/
theorem pushes_apart {a : Range} {g : Segmenter} {x : InWord} (h : ∀ r, g.out x = some r → a.apart r) :
    (a :: g.pushes x).IsChain Range.apart := by
  have placeholders : ∀ b : Range, (b :: if x = Config.sent then List.replicate Config.nPlaceholder .empty else []).IsChain
      Range.apart := fun b => by
    have next : ∀ c : Range, c.apart .empty := fun c => apart_of_run_zero_right c rfl
    split
    · simp [Config.nPlaceholder, List.replicate_succ, next]
    · exact List.isChain_singleton b
  rw [Segmenter.pushes]
  cases out : g.out x with
  | none => exact placeholders a
  | some r => exact List.isChain_cons_cons.mpr ⟨h r out, placeholders r⟩

/-- The colour of a run that starts with another word than a pending index's is another, so only the cap makes it the same. -/
theorem run_eq_cap_of_same_color {g : Segmenter} {n : Index} {r : Range} (h8 : g.prev.toNat ≤ 8)
    (out : g.out (segWord n) = some r) (same : r.color = n) : r.run = 15 := by
  obtain ⟨pending, breaks, rfl⟩ := eq_of_out_eq_some out
  exact breaks.resolve_left (not_not.mpr (same ▸ segWord_color h8 pending))

/-- After a pixel the newest slot has the pixel's colour only if the cap split a run. -/
theorem newest_full_of_same_color {s : State} (kept : s.kept) (split : s.splitOnly) (n : Index) :
    (s.win.pushAll (s.seg.pushes (segWord n))).w3.run ≠ 0 → (s.win.pushAll (s.seg.pushes (segWord n))).w3.color = n →
      (s.win.pushAll (s.seg.pushes (segWord n))).w3.run = 15 := by
  obtain ⟨h8, -, -, drained, -⟩ := kept
  obtain ⟨-, -, third⟩ := split
  rw [pushes_segWord]
  cases out : s.seg.out (segWord n) with
  | some r =>
    rw [Option.toList_some, Window.pushAll_cons, Window.pushAll_nil]
    obtain pushed | emptied := push_w3 s.win r
    · rw [pushed]
      exact fun _ same => run_eq_cap_of_same_color h8 out same
    · exact fun filled => absurd (congrArg Range.run emptied) filled
  | none =>
    rw [Option.toList_none, Window.pushAll_nil]
    intro filled same
    obtain ⟨continues, -⟩ | ⟨-, quiet, -⟩ | ⟨-, -, -, comesOut⟩ := seg_cases s.seg (segWord n)
    · refine third filled (continues ▸ segWord_ne_sent n) (same.trans ?_)
      rw [Segmenter.color, ← continues]
      exact (color_segWord n 0).symm
    · rw [drained quiet] at filled
      exact absurd rfl filled
    · cases out.symm.trans comesOut

/-- A completed step emits clean bytes and keeps the ranges split by the cap only. -/
theorem splitOnly_complete {s : State} (kept : s.kept) (split : s.splitOnly) (x : InWord) :
    (∀ b ∈ s.win.bytes (s.seg.pushes (normalise x)), emittable b) ∧ (topStep (normalise x) s).splitOnly := by
  have ⟨older, newer, newest⟩ := split
  have behind : ∀ r, s.seg.out (normalise x) = some r → s.win.w3.apart r := fun r out => by
    obtain ⟨pending, -, rfl⟩ := eq_of_out_eq_some out
    exact fun filled _ same => newest filled pending same
  obtain ⟨clean, spaced⟩ := pushAll_clean (w := s.win) ⟨older, newer⟩ (pushes_apart behind)
  refine ⟨clean, spaced.1, spaced.2, ?_⟩
  rw [topStep_seg, topStep_win, Segmenter.color, next_prev]
  obtain ⟨-, norm⟩ | ⟨-, norm⟩ := normalise_cases x
  · exact fun _ pending => absurd norm pending
  · rw [norm]
    exact fun filled _ same => newest_full_of_same_color kept split _ filled (same.trans (color_segWord _ 0))

theorem cleanOutput_keptByPorts : KeptByPorts (fun s => s.kept ∧ s.splitOnly ∧ s.cleanOutput) where
  schedule h _ := h
  reset {s} _ := ⟨(fresh_resetBlock s).kept, (fresh_resetBlock s).splitOnly, (fresh_resetBlock s).cleanOutput⟩
  idle {s} h := by
    obtain ⟨kept, split, clean⟩ := h
    exact ⟨kept, split, by rw [State.cleanOutput, emittedBytes_log_idle]; exact clean⟩
  take {s b q} h queued := by
    obtain ⟨kept, split, clean⟩ := h
    exact ⟨kept, split, by rw [State.cleanOutput, emittedBytes_take queued]; exact clean⟩
  accept {s} x h free room := by
    obtain ⟨kept, split, clean⟩ := h
    exact ⟨kept_keptByPorts.accept x kept free room, split, by rw [State.cleanOutput, emittedBytes_log_word]; exact clean⟩
  complete {s w} h busy := by
    obtain ⟨kept, split, clean⟩ := h
    obtain ⟨emitted, split'⟩ := splitOnly_complete (s := s.setInProgress none)
      (by obtain ⟨prev, count, oldest, quiet, bus, -⟩ := kept; exact ⟨prev, count, oldest, quiet, bus, fun _ h => by cases h⟩)
      split w
    refine ⟨kept_complete kept, split', ?_⟩
    rw [State.cleanOutput, emittedBytes_topStep]
    exact List.forall_mem_append.mpr ⟨clean, emitted⟩

/-- Settles O47: neighbours split by the cap only make every byte a clean one, and the pushes keep them so. -/
theorem stepKeepsOutputClean : Obligations.StepKeepsOutputClean := by
  unfold Obligations.StepKeepsOutputClean
  exact fun s t hb ports kept split clean run => (cleanOutput_keptByPorts.step hb ports ⟨kept, split, clean⟩ run).2

/-! ### Reset -/

theorem sound_of_fresh {s : State} (fresh : s.fresh) (hb : s.booted = true) (ports : s.portsOnly) : s.sound :=
  ⟨hb, ports, fresh.kept, fresh.splitOnly, fresh.cleanOutput, fresh.bounded, fresh.accounted, fresh.replayed⟩

/-- Settles O45: the reset state and the state after a reset edge are fresh. -/
theorem resetMeetsTheInvariants : Obligations.ResetMeetsTheInvariants := by
  unfold Obligations.ResetMeetsTheInvariants
  refine ⟨sound_of_fresh fresh_reset rfl fun d hd => absurd hd List.not_mem_nil, fun s e rest ports scheduled rst => ?_⟩
  refine ⟨_, step_rst scheduled rst, sound_of_fresh (fresh_resetBlock _) rfl fun d hd => ports d ?_⟩
  rw [resetBlock_pending, State.log_pending, watchIdle_pending] at hd
  exact scheduled ▸ List.mem_cons_of_mem _ hd

end Sys2Proof.Machine
end

section
/-! A host that takes bytes and offers nothing (20_memory.md section 3), and programs run from power-on with such a host
(30_encoding.md section 5, 70_reset_and_hazards.md section 1). -/

namespace Sys2Proof.Machine

/-! ### Taking bytes -/

/-- `t` is `s` after the bytes `bs` have left `out_q` for the host; neither stage has moved and no word has come in. -/
structure State.gives (s : State) (bs : List Byte) (t : State) : Prop where
  outQ : s.outQ = bs ++ t.outQ
  bytesOut : t.bytesOut = s.bytesOut ++ bs
  wordsIn : t.wordsIn = s.wordsIn
  seg : t.seg = s.seg
  win : t.win = s.win
  inProgress : t.inProgress = s.inProgress
  booted : t.booted = s.booted

theorem gives_nil (s : State) : s.gives [] s := ⟨rfl, (List.append_nil _).symm, rfl, rfl, rfl, rfl, rfl⟩

theorem State.gives.trans {s t u : State} {bs cs : List Byte} (h : s.gives bs t) (h' : t.gives cs u) :
    s.gives (bs ++ cs) u where
  outQ := by rw [h.outQ, h'.outQ, List.append_assoc]
  bytesOut := by rw [h'.bytesOut, h.bytesOut, List.append_assoc]
  wordsIn := h'.wordsIn.trans h.wordsIn
  seg := h'.seg.trans h.seg
  win := h'.win.trans h.win
  inProgress := h'.inProgress.trans h.inProgress
  booted := h'.booted.trans h.booted

/-- Bytes given are emitted bytes still. -/
theorem State.gives.emittedBytes {s t : State} {bs : List Byte} (h : s.gives bs t) : t.emittedBytes = s.emittedBytes := by
  rw [State.emittedBytes, State.emittedBytes, h.bytesOut, h.outQ, List.append_assoc]

section
variable {s : State} {e : Edge} {rest : List Drive}

theorem watched_gives (s : State) (e : Edge) (rest : List Drive) : s.gives [] (s.watched e rest) := by
  have watched : s.watched e rest = watchIdle e (s.setPending rest) := (watchIdle_eq e (s.setPending rest)).symm
  rw [watched]
  obtain ⟨-, same⟩ | ⟨-, seen⟩ := watchIdle_cases e (s.setPending rest)
  · rw [same]; exact ⟨rfl, (List.append_nil _).symm, rfl, rfl, rfl, rfl, rfl⟩
  · rw [seen]
    exact ⟨rfl, (bytesOut_log_idle _).trans (List.append_nil _).symm, wordsIn_log_idle _, rfl, rfl, rfl, rfl⟩

theorem transferOut_pending : (transferOut e (s.watched e rest)).pending = rest := by
  obtain ⟨-, -, -, -, -, pending⟩ := transferOut_frame e (s.watched e rest)
  exact pending

theorem transferOut_gives_head {b : Byte} {q : List Byte} (h : transfers e s = true) (queued : s.outQ = b :: q) :
    s.gives [b] (transferOut e s) := by
  rw [transferOut_of_transfers h queued]
  exact ⟨queued, bytesOut_log_byte _ b, wordsIn_log_byte _ b, rfl, rfl, rfl, rfl⟩

/-- An edge at which no word is accepted and no step is in progress gives what the out port transfers. -/
theorem step_gives (hb : s.booted = true) (scheduled : s.pending = .edge e :: rest) (rst : e.rst = false)
    (quiet : accepts e s = false) (free : s.inProgress = none) :
    ∃ t bs, step s = .next t ∧ t.pending = rest ∧ s.gives bs t := by
  refine ⟨transferOut e (s.watched e rest), ?_⟩
  obtain ⟨-, same⟩ | ⟨b, q, moved, queued, -⟩ := transferOut_cases e (s := s.watched e rest) hb
  · exact ⟨[], step_without_word hb scheduled rst quiet free, transferOut_pending, by rw [same]; exact watched_gives s e rest⟩
  · exact ⟨[b], step_without_word hb scheduled rst quiet free, transferOut_pending,
      (watched_gives s e rest).trans (transferOut_gives_head moved queued)⟩

/-- If the head is presented and taken, one byte is given, where there is one. -/
theorem step_gives_head (hb : s.booted = true) (scheduled : s.pending = .edge e :: rest) (rst : e.rst = false)
    (noWord : e.inValid = false) (ready : e.outReady = true) (draw : e.validDraw = true) (free : s.inProgress = none) :
    ∃ t, step s = .next t ∧ t.pending = rest ∧ s.gives (s.outQ.take 1) t := by
  have quiet : accepts e s = false := by rw [accepts, noWord, Bool.false_and, Bool.false_and]
  refine ⟨_, step_without_word hb scheduled rst quiet free, transferOut_pending, ?_⟩
  have valid : outValid e s = !s.outQ.isEmpty := by rw [outValid_of_booted hb, draw, Bool.and_true]
  cases queued : s.outQ with
  | nil =>
    rw [queued] at valid
    have still : transfers e (s.watched e rest) = false := Bool.eq_false_iff.mpr fun moved =>
      Bool.false_ne_true (valid.symm.trans (transfers_iff.mp moved).1)
    rw [transferOut_of_not still]
    exact watched_gives s e rest
  | cons b q =>
    rw [queued] at valid
    have moved : transfers e (s.watched e rest) = true := transfers_iff.mpr ⟨valid, ready, rst⟩
    exact (watched_gives s e rest).trans (transferOut_gives_head moved queued)

end

/-! ### Several steps -/

theorem runSteps_succ {s t : State} (n : Nat) (h : step s = .next t) : runSteps (n + 1) s = runSteps n t := by
  rw [runSteps, h]

theorem runSteps_add {m : Nat} {s t : State} (h : runSteps m s = .next t) (n : Nat) :
    runSteps (m + n) s = runSteps n t := by
  induction m generalizing s with
  | zero => cases h; rw [Nat.zero_add]
  | succ m ih =>
    obtain ⟨u, first⟩ := step_total s
    rw [runSteps_succ m first] at h
    rw [Nat.succ_add, runSteps_succ _ first, ih h]

/-- An edge at which the host offers nothing and takes the head, which is presented. -/
def Edge.takes (e : Edge) : Prop := e.rst = false ∧ e.inValid = false ∧ e.outReady = true ∧ e.validDraw = true

/-- Over enough such edges the host is given all of `out_q`. -/
theorem runSteps_drains {es : List Edge} (takes : ∀ e ∈ es, e.takes) {s : State} {rest : List Drive}
    (hb : s.booted = true) (scheduled : s.pending = es.map .edge ++ rest) (free : s.inProgress = none)
    (enough : s.outQ.length ≤ es.length) :
    ∃ t, runSteps es.length s = .next t ∧ t.pending = rest ∧ t.outQ = [] ∧ s.gives s.outQ t := by
  induction es generalizing s with
  | nil =>
    have empty : s.outQ = [] := List.eq_nil_of_length_eq_zero (Nat.le_zero.mp enough)
    exact ⟨s, rfl, scheduled, empty, by rw [empty]; exact gives_nil s⟩
  | cons e es ih =>
    obtain ⟨⟨rst, noWord, ready, draw⟩, takes⟩ := List.forall_mem_cons.mp takes
    obtain ⟨t, first, pending, given⟩ := step_gives_head hb scheduled rst noWord ready draw free
    have left : t.outQ = s.outQ.drop 1 := by
      have split := given.outQ
      nth_rewrite 1 [← List.take_append_drop 1 s.outQ] at split
      exact (List.append_cancel_left split).symm
    have enough' : t.outQ.length ≤ es.length := by
      rw [left, List.length_drop]
      exact Nat.sub_le_of_le_add enough
    obtain ⟨u, run, pending', empty, given'⟩ :=
      ih takes (given.booted.trans hb) pending (given.inProgress.trans free) enough'
    refine ⟨u, (runSteps_succ _ first).trans run, pending', empty, ?_⟩
    have all := given.trans given'
    rwa [left, List.take_append_drop] at all

/-- Settles O43: with as many edges as bytes, all of `out_q` is given and nothing is left in progress. -/
theorem queueDrains : Obligations.QueueDrains := by
  unfold Obligations.QueueDrains
  intro s es rest hb scheduled count takes free
  obtain ⟨t, run, pending, empty, given⟩ := runSteps_drains takes hb scheduled free count.ge
  exact ⟨t, run, idle_iff.mpr ⟨given.inProgress.trans free, empty⟩, given.bytesOut, given.seg, given.win, pending⟩

/-! ### Programs from power-on -/

/-- The block after the operations `is` of a program: it has taken each of their words and given all their bytes, and the drives
left are `rest`. -/
structure State.ran (t : State) (is : List Instr) (rest : List Drive) : Prop where
  booted : t.booted = true
  inProgress : t.inProgress = none
  outQ : t.outQ = []
  pending : t.pending = rest
  wordsIn : t.wordsIn = wordsBehindReset is
  replays : ∃ u, execAll is State.reset = .next u ∧ t.seg = u.seg ∧ t.win = u.win ∧ t.bytesOut = u.outQ

theorem wordsBehindReset_concat_reset (is : List Instr) : wordsBehindReset (is ++ [.reset]) = [] := by
  rw [wordsBehindReset, List.reverse_concat, List.takeWhile_cons, if_neg (by decide)]
  rfl

theorem wordsBehindReset_concat_word (is : List Instr) {i : Instr} (h : i ≠ .reset) :
    wordsBehindReset (is ++ [i]) = wordsBehindReset is ++ [(encode i).extractLsb' 0 4] := by
  rw [wordsBehindReset, List.reverse_concat, List.takeWhile_cons, if_pos (bne_iff_ne.mpr h), List.reverse_cons,
    List.map_append]
  rfl

/-- A reset edge in a program, or before it. -/
theorem ran_of_reset_step {s : State} {rest : List Drive} {is : List Instr} {u : State}
    (scheduled : s.pending = .edge resetEdge :: rest) (replay : execAll is State.reset = .next (resetBlock u))
    (words : wordsBehindReset is = []) : ∃ t, step s = .next t ∧ t.ran is rest := by
  have fresh := fresh_resetBlock (watchIdle resetEdge (s.setPending rest))
  exact ⟨_, step_rst scheduled rfl, rfl, fresh.inProgress, fresh.outQ, watchIdle_pending _ _,
    fresh.wordsIn.trans words.symm, resetBlock u, replay, fresh.seg, fresh.win, fresh.bytesOut⟩

/-- A word offered to a block with an empty queue is taken, and its step runs at once. -/
theorem step_offer {s : State} {rest : List Drive} {x : InWord} (hb : s.booted = true) (free : s.inProgress = none)
    (empty : s.outQ = []) (scheduled : s.pending = .edge (offerEdge x) :: rest) :
    ∃ t, step s = .next t ∧ t.booted = true ∧ t.inProgress = none ∧ t.pending = rest ∧ t.wordsIn = s.wordsIn ++ [x] ∧
      t.bytesOut = s.bytesOut ∧ t.seg = s.seg.next (normalise x) ∧ t.win = s.win.pushAll (s.seg.pushes (normalise x)) ∧
      t.outQ = s.win.bytes (s.seg.pushes (normalise x)) := by
  have room : s.hasRoom = true := by rw [State.hasRoom, empty, List.isEmpty_nil, Bool.true_or]
  have accepted : accepts (offerEdge x) s = true := accepts_iff.mpr ⟨rfl, (inReady_iff _ hb).mpr ⟨rfl, free, room, rfl⟩, rfl⟩
  have watched := watched_gives s (offerEdge x) rest
  have run : step s = .next (topStep (normalise x)
      ((((s.watched (offerEdge x) rest).setInProgress (some (normalise x))).log (.word x)).setInProgress none)) := by
    rw [step_edge_watched hb scheduled rfl, transferOut_offerEdge, acceptIn_of_accepts accepted, finishStep_of_done rfl rfl,
      exec_decodeIn]
    exact congrArg (fun y => Host.Outcome.next (topStep y _)) (normalise_normalise x)
  refine ⟨_, run, hb, rfl, rfl, ?_, ?_, rfl, rfl, ?_⟩
  · exact (wordsIn_log_word _ x).trans (congrArg (· ++ [x]) watched.wordsIn)
  · exact (bytesOut_log_word _ x).trans (watched.bytesOut.trans (List.append_nil _))
  · rw [topStep_outQ]
    exact congrArg (· ++ _) empty

/-- One operation of a program, with the edges at which the host takes its bytes. -/
theorem ran_concat {t : State} {is : List Instr} {i : Instr} {rest : List Drive}
    (level : i.level = .inPort ∨ i.level = .rstPin) (h : t.ran is (opDrives i ++ rest)) :
    ∃ t', runSteps (opDrives i).length t = .next t' ∧ t'.ran (is ++ [i]) rest := by
  obtain ⟨hb, free, empty, pending, words, u, replay, seg, win, bytes⟩ := h
  obtain level | level := level
  · have drives : opDrives i =
        [Drive.edge (offerEdge ((encode i).extractLsb' 0 4))] ++ (List.replicate 4 takeEdge).map .edge := by
      rw [opDrives, driveOf, level, List.map_replicate]
      rfl
    have notReset : i ≠ .reset := fun reset => by rw [reset] at level; cases level
    have op : exec i u = .next (topStep (normalise ((encode i).extractLsb' 0 4)) u) := by
      rw [← exec_decodeIn, decodeIn_encode level]
    rw [drives] at pending ⊢
    obtain ⟨t₁, first, hb₁, free₁, pending₁, words₁, bytes₁, seg₁, win₁, outQ₁⟩ := step_offer hb free empty pending
    have enough : t₁.outQ.length ≤ (List.replicate 4 takeEdge).length := by
      rw [outQ₁]
      exact length_bytes_pushes_le _ _ _
    have takes : ∀ e ∈ List.replicate 4 takeEdge, e.takes := fun e he => by
      rw [List.eq_of_mem_replicate he]
      exact ⟨rfl, rfl, rfl, rfl⟩
    obtain ⟨t₂, run, pending₂, empty₂, given⟩ := runSteps_drains takes hb₁ pending₁ free₁ enough
    refine ⟨t₂, (runSteps_succ 4 first).trans run, given.booted.trans hb₁, given.inProgress.trans free₁, empty₂, pending₂, ?_,
      _, (execAll_append replay [i]).trans (execAll_cons op), ?_, ?_, ?_⟩
    · rw [given.wordsIn, words₁, words, wordsBehindReset_concat_word is notReset]
    · rw [given.seg, seg₁, seg, topStep_seg]
    · rw [given.win, win₁, seg, win, topStep_win]
    · rw [given.bytesOut, bytes₁, outQ₁, bytes, seg, win, topStep_outQ]
  · obtain rfl := eq_reset_of_level level
    obtain ⟨t', first, ran⟩ := ran_of_reset_step (is := is ++ [.reset]) pending
      ((execAll_append replay [.reset]).trans (execAll_cons (exec_reset u))) (wordsBehindReset_concat_reset is)
    exact ⟨t', (runSteps_succ 0 first).trans rfl, ran⟩

/-- A program's operations behind others. -/
theorem ran_append {is js : List Instr} {t : State} {rest : List Drive}
    (levels : ∀ i ∈ js, i.level = .inPort ∨ i.level = .rstPin) (h : t.ran is (js.flatMap opDrives ++ rest)) :
    ∃ t', runSteps (js.flatMap opDrives).length t = .next t' ∧ t'.ran (is ++ js) rest := by
  induction js generalizing is t with
  | nil => exact ⟨t, rfl, by rw [List.append_nil]; exact h⟩
  | cons i js ih =>
    obtain ⟨level, levels⟩ := List.forall_mem_cons.mp levels
    rw [List.flatMap_cons, List.append_assoc] at h
    obtain ⟨t₁, first, ran₁⟩ := ran_concat level h
    obtain ⟨t₂, run, ran₂⟩ := ih levels ran₁
    rw [List.flatMap_cons, List.length_append]
    refine ⟨t₂, (runSteps_add first _).trans run, ?_⟩
    rwa [List.append_assoc] at ran₂

/-- Settles O54: the reset edge leaves the state after no operation, and the program's follow it one by one. -/
theorem programsRunFromPowerOn : Obligations.ProgramsRunFromPowerOn := by
  unfold Obligations.ProgramsRunFromPowerOn
  intro p s rest levels scheduled
  obtain ⟨t₁, first, booted⟩ := ran_of_reset_step (is := []) (u := State.reset) scheduled rfl rfl
  obtain ⟨t, run, ran⟩ := ran_append levels booted
  obtain ⟨hb, free, empty, pending, words, u, replay, seg, win, bytes⟩ := ran
  exact ⟨t, u, (runSteps_succ _ first).trans run, replay, hb, words, free, seg, win, bytes, idle_iff.mpr ⟨free, empty⟩, pending⟩

end Sys2Proof.Machine
end

section
/-! Liveness over infinite schedules (20_memory.md section 3): under the duties of R47 and R49 every byte emitted is transferred, a
block that takes no more words comes to rest, and a word that stays offered is accepted. -/

namespace Sys2Proof.Machine

/-! ### One edge of a schedule -/

/-- The transferred and the emitted bytes have grown from these. -/
def grownFrom (bs cs : List Byte) (t : State) : Prop := bs <+: t.bytesOut ∧ cs <+: t.emittedBytes

theorem grownFrom_keptByEdge (bs cs : List Byte) : KeptByEdge (grownFrom bs cs) where
  idle {s} h := by rwa [grownFrom, bytesOut_log_idle, emittedBytes_log_idle]
  take {s b q} h queued := by
    rw [grownFrom, bytesOut_log_byte, emittedBytes_take queued]
    exact ⟨h.1.trans (List.prefix_append _ _), h.2⟩
  accept x h _ _ := by rwa [grownFrom, bytesOut_log_word, emittedBytes_log_word]
  complete {s w} h _ := by
    rw [grownFrom, emittedBytes_topStep]
    exact ⟨h.1, h.2.trans (List.prefix_append _ _)⟩

/-- Every state of a schedule without reset has been reset once, if the first has. -/
theorem booted_keptByEdge : KeptByEdge (fun s => s.booted = true) := booted_keptByPorts.toKeptByEdge

section
variable {s t : State} {e : Edge} (hb : s.booted = true) (rst : e.rst = false)
  (run : step (s.setPending [.edge e]) = .next t)
include hb rst run

theorem edge_run : finishStep e (acceptIn e (s.setPending []) (transferOut e (watchIdle e (s.setPending [])))) = .next t := by
  exact (step_edge (s := s.setPending [.edge e]) rfl rst hb).symm.trans run

theorem booted_of_edge : t.booted = true :=
  booted_keptByEdge.edge e (s := s.setPending []) hb hb (edge_run hb rst run)

theorem grownFrom_of_edge {bs cs : List Byte} (h : grownFrom bs cs s) : grownFrom bs cs t :=
  (grownFrom_keptByEdge bs cs).edge e (s := s.setPending []) hb h (edge_run hb rst run)

/-- A head that is presented and taken is transferred. -/
theorem length_bytesOut_of_edge (queued : s.outQ ≠ []) (ready : e.outReady = true) (draw : e.validDraw = true) :
    s.bytesOut.length < t.bytesOut.length := by
  obtain ⟨b, q, head⟩ := List.exists_cons_of_ne_nil queued
  have watched : watchIdle e (s.setPending []) = s.watched e [] := watchIdle_eq e (s.setPending [])
  have moved : transfers e (s.watched e []) = true :=
    transfers_iff.mpr ⟨(outValid_of_booted (s := s) hb).trans (by rw [draw, head]; rfl), ready, rst⟩
  have given := (watched_gives s e []).trans (transferOut_gives_head moved head)
  have taken : grownFrom (s.bytesOut ++ [b]) [] (transferOut e (watchIdle e (s.setPending []))) :=
    ⟨by rw [watched, given.bytesOut]; rfl, List.nil_prefix⟩
  obtain ⟨grown, -⟩ := (grownFrom_keptByEdge _ _).afterTransfer e (s := s.setPending []) hb taken (edge_run hb rst run)
  have length := grown.length_le
  rw [List.length_append] at length
  exact length

/-- The step in progress is done after an edge whose draw completes it and which accepts nothing. -/
theorem inProgress_of_done (quiet : accepts e s = false) (done : e.doneDraw = true) : t.inProgress = none := by
  have finish := edge_run hb rst run
  rw [acceptIn_of_not (s₀ := s.setPending []) quiet] at finish
  obtain ⟨free | busy, stays⟩ | ⟨w, -, -, completes⟩ :=
    finishStep_cases e (transferOut e (watchIdle e (s.setPending [])))
  · cases stays.symm.trans finish; exact free
  · exact absurd (done.symm.trans busy) Bool.noConfusion
  · rw [completes, exec_decodeIn] at finish
    cases finish
    rfl

/-- With nothing in progress and nothing accepted the edge only gives bytes. -/
theorem gives_of_edge (quiet : accepts e s = false) (free : s.inProgress = none) : ∃ bs, s.gives bs t := by
  obtain ⟨t', bs, run', -, given⟩ := step_gives (s := s.setPending [.edge e]) hb rfl rst quiet free
  cases run'.symm.trans run
  exact ⟨bs, given.outQ, given.bytesOut, given.wordsIn, given.seg, given.win, given.inProgress, given.booted⟩

end

/-! ### Schedules -/

section
variable {es : Nat → Edge} (fair : FairSchedule es)
include fair

theorem FairSchedule.rst (n : Nat) : (es n).rst = false := by
  obtain ⟨rst, -⟩ := fair
  exact rst n

theorem FairSchedule.takes (n : Nat) : ∃ m, n ≤ m ∧ (es m).outReady = true ∧ (es m).validDraw = true := by
  obtain ⟨-, takes, -⟩ := fair
  exact takes n

theorem FairSchedule.ready (n : Nat) : ∃ m, n ≤ m ∧ (es m).readyDraw = true := by
  obtain ⟨-, -, ready, -⟩ := fair
  exact ready n

theorem FairSchedule.done (n : Nat) : ∃ m, n ≤ m ∧ (es m).doneDraw = true := by
  obtain ⟨-, -, -, done⟩ := fair
  exact done n

end

theorem stateAt_succ (es : Nat → Edge) (s : State) (n : Nat) :
    step ((stateAt es s n).setPending [.edge (es n)]) = .next (stateAt es s (n + 1)) := by
  obtain ⟨t, run⟩ := step_total ((stateAt es s n).setPending [.edge (es n)])
  rw [stateAt, run]

section
variable {es : Nat → Edge} {s : State} (hb : s.booted = true) (fair : FairSchedule es)
include hb fair

theorem stateAt_booted (n : Nat) : (stateAt es s n).booted = true := by
  induction n with
  | zero => exact hb
  | succ n ih => exact booted_of_edge ih (fair.rst n) (stateAt_succ es s n)

theorem stateAt_grown {n m : Nat} (h : n ≤ m) :
    grownFrom (stateAt es s n).bytesOut (stateAt es s n).emittedBytes (stateAt es s m) := by
  induction h with
  | refl => exact ⟨List.prefix_rfl, List.prefix_rfl⟩
  | step _ ih => exact grownFrom_of_edge (stateAt_booted hb fair _) (fair.rst _) (stateAt_succ es s _) ih

/-- The number of bytes transferred reaches every number of bytes emitted. -/
theorem exists_length_bytesOut_ge (n k : Nat) (h : k ≤ (stateAt es s n).emittedBytes.length) :
    ∃ m, n ≤ m ∧ k ≤ (stateAt es s m).bytesOut.length := by
  induction k with
  | zero => exact ⟨n, le_rfl, Nat.zero_le _⟩
  | succ k ih =>
    obtain ⟨m, later, reached⟩ := ih (Nat.le_of_succ_le h)
    obtain ⟨m', later', ready, draw⟩ := fair.takes m
    have grown := (stateAt_grown hb fair later').1.length_le
    by_cases more : k + 1 ≤ (stateAt es s m').bytesOut.length
    · exact ⟨m', later.trans later', more⟩
    · have emitted := (stateAt_grown hb fair (later.trans later')).2.length_le
      have queued : (stateAt es s m').outQ ≠ [] := fun empty => by
        rw [State.emittedBytes.eq_def (stateAt es s m'), empty, List.append_nil] at emitted
        exact more (h.trans emitted)
      have moved := length_bytesOut_of_edge (stateAt_booted hb fair m') (fair.rst m') (stateAt_succ es s m') queued ready draw
      exact ⟨m' + 1, Nat.le_succ_of_le (later.trans later'), Nat.succ_le_of_lt ((reached.trans grown).trans_lt moved)⟩

/-- Every byte emitted so far is eventually transferred, in order (R49). -/
theorem exists_emittedBytes_transferred (n : Nat) :
    ∃ m, n ≤ m ∧ (stateAt es s n).emittedBytes <+: (stateAt es s m).bytesOut := by
  obtain ⟨m, later, reached⟩ := exists_length_bytesOut_ge hb fair n _ le_rfl
  exact ⟨m, later, List.prefix_of_prefix_length_le (stateAt_grown hb fair later).2 (List.prefix_append _ _) reached⟩

/-- From a state with nothing in progress on, if nothing is accepted, nothing is emitted. -/
theorem gives_of_no_word {n m : Nat} (quiet : ∀ k, n ≤ k → accepts (es k) (stateAt es s k) = false)
    (free : (stateAt es s n).inProgress = none) (h : n ≤ m) : ∃ bs, (stateAt es s n).gives bs (stateAt es s m) := by
  induction h with
  | refl => exact ⟨[], gives_nil _⟩
  | @step m later ih =>
    obtain ⟨bs, given⟩ := ih
    obtain ⟨cs, given'⟩ := gives_of_edge (stateAt_booted hb fair m) (fair.rst m) (stateAt_succ es s m) (quiet m later)
      (given.inProgress.trans free)
    exact ⟨bs ++ cs, given.trans given'⟩

/-- A block that accepts no more words comes to be idle, and stays so. -/
theorem exists_idle_of_no_word {n : Nat} (quiet : ∀ k, n ≤ k → accepts (es k) (stateAt es s k) = false) :
    ∃ m, n ≤ m ∧ ∀ k, m ≤ k → (stateAt es s k).inProgress = none ∧ (stateAt es s k).outQ = [] := by
  obtain ⟨m, later, done⟩ := fair.done n
  have free := inProgress_of_done (stateAt_booted hb fair m) (fair.rst m) (stateAt_succ es s m) (quiet m later) done
  obtain ⟨m', later', transferred⟩ := exists_emittedBytes_transferred hb fair (m + 1)
  refine ⟨m', (later.trans (Nat.le_succ m)).trans later', fun k last => ?_⟩
  obtain ⟨bs, given⟩ := gives_of_no_word hb fair (fun k hk => quiet k ((later.trans (Nat.le_succ m)).trans hk)) free
    (later'.trans last)
  refine ⟨given.inProgress.trans free, List.eq_nil_of_length_eq_zero ?_⟩
  have all := (transferred.trans (stateAt_grown hb fair last).1).length_le
  rw [← given.emittedBytes, State.emittedBytes, List.length_append] at all
  omega

/-- A word that stays offered is accepted (R49). -/
theorem exists_accepts {n : Nat} (offered : ∀ k, n ≤ k → (es k).inValid = true) :
    ∃ m, n ≤ m ∧ accepts (es m) (stateAt es s m) = true := by
  by_contra never
  have quiet : ∀ k, n ≤ k → accepts (es k) (stateAt es s k) = false := fun k hk =>
    Bool.eq_false_iff.mpr fun accepted => never ⟨k, hk, accepted⟩
  obtain ⟨m, later, idle⟩ := exists_idle_of_no_word hb fair quiet
  obtain ⟨m', later', draw⟩ := fair.ready m
  obtain ⟨free, empty⟩ := idle m' later'
  have room : (stateAt es s m').hasRoom = true := by rw [State.hasRoom, empty, List.isEmpty_nil, Bool.true_or]
  have ready := (inReady_iff (es m') (stateAt_booted hb fair m')).mpr ⟨fair.rst m', free, room, draw⟩
  have last := later.trans later'
  exact never ⟨m', last, accepts_iff.mpr ⟨offered m' last, ready, fair.rst m'⟩⟩

end

/-- Settles O44: both streams, each by its own lemma. -/
theorem streamsAreLive : Obligations.StreamsAreLive := by
  unfold Obligations.StreamsAreLive
  exact fun es s hb fair => ⟨exists_emittedBytes_transferred hb fair, fun offered n => exists_accepts hb fair fun k _ => offered k⟩

end Sys2Proof.Machine
end

section
/-! The host of 70_reset_and_hazards.md R183 edge by edge, and that it comes to its end where the duties of R47 and R49 are kept. -/

namespace Sys2Proof.Machine

/-! ### What the host does at an edge -/

section
variable (h : HostSide) (d e : Edge) (s : State)

@[simp] theorem hostEdge_outReady : (h.edge d).outReady = d.outReady := by rw [HostSide.edge]; split <;> rfl
@[simp] theorem hostEdge_validDraw : (h.edge d).validDraw = d.validDraw := by rw [HostSide.edge]; split <;> rfl
@[simp] theorem hostEdge_readyDraw : (h.edge d).readyDraw = d.readyDraw := by rw [HostSide.edge]; split <;> rfl
@[simp] theorem hostEdge_doneDraw : (h.edge d).doneDraw = d.doneDraw := by rw [HostSide.edge]; split <;> rfl

theorem hostEdge_rst_of_not_boot {h : HostSide} (live : ∀ n, h.phase ≠ .boot n) : (h.edge d).rst = false :=
  Bool.eq_false_iff.mpr fun rst => by
    obtain ⟨n, boot⟩ := (edge_rst h d).mp rst
    exact live n boot

variable (images : List (List Index)) (w : InWord) (ws : List InWord)

theorem hostEdge_send : (HostSide.edge ⟨.send w ws, images⟩ d) = { d with rst := false, inData := w } := rfl
theorem hostEdge_drain : (HostSide.edge ⟨.drain, images⟩ d) = { d with rst := false, inValid := false } := rfl

theorem next_boot_succ (n : Nat) : HostSide.next ⟨.boot (n + 1), images⟩ e s = ⟨.boot n, images⟩ := rfl
theorem next_boot_zero : HostSide.next ⟨.boot 0, images⟩ e s = HostSide.nextImage ⟨.boot 0, images⟩ := rfl

theorem next_send_of_accepts {e : Edge} {s : State} (h : accepts e s = true) :
    HostSide.next ⟨.send w ws, images⟩ e s = ⟨sendPhase ws, images⟩ := if_pos h

theorem next_send_of_not {e : Edge} {s : State} (h : accepts e s = false) :
    HostSide.next ⟨.send w ws, images⟩ e s = ⟨.send w ws, images⟩ := if_neg (Bool.eq_false_iff.mp h)

theorem next_drain_of_idle {e : Edge} {s : State} (h : idleOut e s = true) :
    HostSide.next ⟨.drain, images⟩ e s = HostSide.nextImage ⟨.drain, images⟩ := if_pos h

theorem next_drain_of_not {e : Edge} {s : State} (h : idleOut e s = false) :
    HostSide.next ⟨.drain, images⟩ e s = ⟨.drain, images⟩ := if_neg (Bool.eq_false_iff.mp h)

theorem nextImage_nil (φ : HostPhase) : HostSide.nextImage ⟨φ, []⟩ = ⟨.done, []⟩ := rfl

theorem nextImage_cons (φ : HostPhase) (p : List Index) (ps : List (List Index)) :
    HostSide.nextImage ⟨φ, p :: ps⟩ = ⟨sendPhase (imageWords p), ps⟩ := rfl

end

theorem sendPhase_ne_boot (ws : List InWord) (n : Nat) : sendPhase ws ≠ .boot n := by
  cases ws <;> exact HostPhase.noConfusion

theorem nextImage_ne_boot (h : HostSide) (n : Nat) : h.nextImage.phase ≠ .boot n := by
  obtain ⟨φ, images⟩ := h
  cases images with
  | nil => exact HostPhase.noConfusion
  | cons p ps => exact sendPhase_ne_boot _ n

/-- A host that has stopped asserting `rst` does not start again. -/
theorem next_ne_boot {h : HostSide} (live : ∀ n, h.phase ≠ .boot n) (e : Edge) (s : State) (n : Nat) :
    (h.next e s).phase ≠ .boot n := by
  obtain ⟨φ, images⟩ := h
  cases φ with
  | boot m => exact absurd rfl (live m)
  | send w ws =>
    cases accepted : accepts e s with
    | true => rw [next_send_of_accepts _ _ _ accepted]; exact sendPhase_ne_boot ws n
    | false => rw [next_send_of_not _ _ _ accepted]; exact live n
  | drain =>
    cases idle : idleOut e s with
    | true => rw [next_drain_of_idle _ idle]; exact nextImage_ne_boot _ n
    | false => rw [next_drain_of_not _ idle]; exact live n
  | done => exact live n

/-! ### Host and block over an infinite schedule -/

theorem hostRun_append (ds ds' : List Edge) (h : HostSide) (s : State) :
    hostRun (ds ++ ds') h s = hostRun ds' (hostRun ds h s).1 (hostRun ds h s).2 := by
  induction ds generalizing h s with
  | nil => rfl
  | cons d ds ih =>
    obtain ⟨t, run⟩ := step_total (s.setPending [.edge (h.edge d)])
    rw [List.cons_append, hostRun_cons _ run, hostRun_cons _ run, ih]

/-- Host and block after `n` edges. -/
def hostAt (es : Nat → Edge) (h : HostSide) (s : State) (n : Nat) : HostSide × State := hostRun ((List.range n).map es) h s

/-- Edge `n` with the pins the host drives. -/
def hostEdgeAt (es : Nat → Edge) (h : HostSide) (s : State) (n : Nat) : Edge := (hostAt es h s n).1.edge (es n)

section
variable (es : Nat → Edge) (h : HostSide) (s : State) (n : Nat)

theorem hostAt_succ : ∃ t, step ((hostAt es h s n).2.setPending [.edge (hostEdgeAt es h s n)]) = .next t ∧
    hostAt es h s (n + 1) = ((hostAt es h s n).1.next (hostEdgeAt es h s n) (hostAt es h s n).2, t) := by
  obtain ⟨t, run⟩ := step_total ((hostAt es h s n).2.setPending [.edge (hostEdgeAt es h s n)])
  refine ⟨t, run, ?_⟩
  rw [hostAt, List.range_succ, List.map_append, hostRun_append]
  exact hostRun_cons [] run

theorem hostAt_succ_fst :
    (hostAt es h s (n + 1)).1 = (hostAt es h s n).1.next (hostEdgeAt es h s n) (hostAt es h s n).2 := by
  obtain ⟨t, -, answer⟩ := hostAt_succ es h s n
  rw [answer]

theorem hostAt_succ_snd :
    step ((hostAt es h s n).2.setPending [.edge (hostEdgeAt es h s n)]) = .next (hostAt es h s (n + 1)).2 := by
  obtain ⟨t, run, answer⟩ := hostAt_succ es h s n
  rw [run, answer]

/-- The block beside the host runs over the schedule of the host's edges. -/
theorem stateAt_hostEdgeAt (k : Nat) :
    stateAt (fun j => hostEdgeAt es h s (k + j)) (hostAt es h s k).2 n = (hostAt es h s (k + n)).2 := by
  induction n with
  | zero => rfl
  | succ n ih =>
    have run := stateAt_succ (fun j => hostEdgeAt es h s (k + j)) (hostAt es h s k).2 n
    rw [ih] at run
    exact Host.Outcome.next.inj (run.symm.trans (hostAt_succ_snd es h s (k + n)))

end

/-- The host asserts `rst` for the edges it boots with, and then turns to its first image. -/
theorem hostAt_boot (es : Nat → Edge) (more : Nat) (images : List (List Index)) (s : State) {n : Nat} (h : n ≤ more) :
    (hostAt es (.atPowerOn more images) s n).1 = ⟨.boot (more - n), images⟩ := by
  induction n with
  | zero => rfl
  | succ n ih =>
    have left : more - n = (more - (n + 1)) + 1 := by omega
    rw [hostAt_succ_fst, ih (Nat.le_of_succ_le h), left, next_boot_succ]

theorem hostAt_booted (es : Nat → Edge) (more : Nat) (images : List (List Index)) (s : State) :
    (hostAt es (.atPowerOn more images) s (more + 1)).1 = HostSide.nextImage ⟨.boot 0, images⟩ ∧
      (hostAt es (.atPowerOn more images) s (more + 1)).2.booted = true := by
  have last := hostAt_boot es more images s le_rfl
  rw [Nat.sub_self] at last
  have rst : (hostEdgeAt es (.atPowerOn more images) s more).rst = true := (edge_rst _ _).mpr ⟨0, by rw [last]⟩
  refine ⟨by rw [hostAt_succ_fst, last, next_boot_zero], ?_⟩
  have run := hostAt_succ_snd es (.atPowerOn more images) s more
  rw [step_rst rfl rst] at run
  exact (congrArg State.booted (Host.Outcome.next.inj run)).symm

/-! ### The host's progress after boot -/

section
variable {es : Nat → Edge} {h : HostSide} {s : State} {k : Nat} (fair : FairSchedule es)
  (offered : ∀ n, (es n).inValid = true) (live : ∀ n, (hostAt es h s k).1.phase ≠ .boot n)
  (hb : (hostAt es h s k).2.booted = true)

include live in
theorem hostAt_ne_boot (j n : Nat) : (hostAt es h s (k + j)).1.phase ≠ .boot n := by
  induction j generalizing n with
  | zero => exact live n
  | succ j ih => rw [← Nat.add_assoc, hostAt_succ_fst]; exact next_ne_boot ih _ _ n

include fair live in
/-- The host's edges keep the duties the draws keep. -/
theorem fair_hostEdgeAt : FairSchedule (fun j => hostEdgeAt es h s (k + j)) := by
  obtain ⟨-, takes, ready, done⟩ := fair
  refine ⟨fun j => hostEdge_rst_of_not_boot _ (hostAt_ne_boot live j), fun n => ?_, fun n => ?_, fun n => ?_⟩
  · obtain ⟨m, later, outReady, validDraw⟩ := takes (k + n)
    obtain ⟨i, rfl⟩ := Nat.exists_eq_add_of_le ((Nat.le_add_right k n).trans later)
    exact ⟨i, Nat.le_of_add_le_add_left later, (hostEdge_outReady _ _).trans outReady, (hostEdge_validDraw _ _).trans validDraw⟩
  · obtain ⟨m, later, draw⟩ := ready (k + n)
    obtain ⟨i, rfl⟩ := Nat.exists_eq_add_of_le ((Nat.le_add_right k n).trans later)
    exact ⟨i, Nat.le_of_add_le_add_left later, (hostEdge_readyDraw _ _).trans draw⟩
  · obtain ⟨m, later, draw⟩ := done (k + n)
    obtain ⟨i, rfl⟩ := Nat.exists_eq_add_of_le ((Nat.le_add_right k n).trans later)
    exact ⟨i, Nat.le_of_add_le_add_left later, (hostEdge_doneDraw _ _).trans draw⟩

/-- What the host does not leave at any edge it never leaves. -/
theorem hostAt_stays {g : HostSide} {n : Nat} (start : (hostAt es h s (k + n)).1 = g)
    (stays : ∀ m, n ≤ m → (hostAt es h s (k + m)).1 = g →
      g.next (hostEdgeAt es h s (k + m)) (hostAt es h s (k + m)).2 = g) {m : Nat} (later : n ≤ m) :
    (hostAt es h s (k + m)).1 = g := by
  induction later with
  | refl => exact start
  | @step m later ih =>
    change (hostAt es h s (k + m + 1)).1 = g
    rw [hostAt_succ_fst, ih, stays m later ih]

include fair offered live hb

/-- A word the host sends is accepted, and the host goes on to the next. -/
theorem host_sends_word {w : InWord} {ws : List InWord} {images : List (List Index)} {n : Nat}
    (start : (hostAt es h s (k + n)).1 = ⟨.send w ws, images⟩) :
    ∃ m, (hostAt es h s (k + m)).1 = ⟨sendPhase ws, images⟩ := by
  by_contra never
  have refused : ∀ m, (hostAt es h s (k + m)).1 = ⟨.send w ws, images⟩ →
      accepts (hostEdgeAt es h s (k + m)) (hostAt es h s (k + m)).2 = false := fun m same =>
    Bool.eq_false_iff.mpr fun accepted => never ⟨m + 1, by
      rw [← Nat.add_assoc, hostAt_succ_fst, same, next_send_of_accepts _ _ _ accepted]⟩
  have same := fun m (later : n ≤ m) => hostAt_stays start (fun m _ same => next_send_of_not _ _ _ (refused m same)) later
  have valid : ∀ m, n ≤ m → (hostEdgeAt es h s (k + m)).inValid = true := fun m later => by
    rw [hostEdgeAt, same m later, hostEdge_send]
    exact offered _
  obtain ⟨m, later, accepted⟩ := exists_accepts hb (fair_hostEdgeAt fair live) valid
  rw [stateAt_hostEdgeAt] at accepted
  exact Bool.false_ne_true ((refused m (same m later)).symm.trans accepted)

/-- All words of an image are sent. -/
theorem host_sends_image {ws : List InWord} {images : List (List Index)} {n : Nat}
    (start : (hostAt es h s (k + n)).1 = ⟨sendPhase ws, images⟩) :
    ∃ m, (hostAt es h s (k + m)).1 = ⟨.drain, images⟩ := by
  induction ws generalizing n with
  | nil => exact ⟨n, start⟩
  | cons w ws ih =>
    obtain ⟨m, sent⟩ := host_sends_word fair offered live hb start
    exact ih sent

omit offered in
/-- A host that takes bytes until `idle` sees it. -/
theorem host_drains {images : List (List Index)} {n : Nat} (start : (hostAt es h s (k + n)).1 = ⟨.drain, images⟩) :
    ∃ m, (hostAt es h s (k + m)).1 = HostSide.nextImage ⟨.drain, images⟩ := by
  by_contra never
  have busy : ∀ m, (hostAt es h s (k + m)).1 = ⟨.drain, images⟩ →
      idleOut (hostEdgeAt es h s (k + m)) (hostAt es h s (k + m)).2 = false := fun m same =>
    Bool.eq_false_iff.mpr fun idle => never ⟨m + 1, by
      rw [← Nat.add_assoc, hostAt_succ_fst, same, next_drain_of_idle _ idle]⟩
  have same := fun m (later : n ≤ m) => hostAt_stays start (fun m _ same => next_drain_of_not _ (busy m same)) later
  have quiet : ∀ m, n ≤ m → accepts (hostEdgeAt es h s (k + m))
      (stateAt (fun j => hostEdgeAt es h s (k + j)) (hostAt es h s k).2 m) = false := fun m later => by
    have noWord : (hostEdgeAt es h s (k + m)).inValid = false := by rw [hostEdgeAt, same m later, hostEdge_drain]
    rw [accepts, noWord, Bool.false_and, Bool.false_and]
  obtain ⟨m, later, idle⟩ := exists_idle_of_no_word hb (fair_hostEdgeAt fair live) quiet
  have booted := stateAt_booted hb (fair_hostEdgeAt fair live) m
  have seen : idleOut (hostEdgeAt es h s (k + m)) (hostAt es h s (k + m)).2 = true := by
    rw [← stateAt_hostEdgeAt, idleOut_of_booted booted, idle_iff]
    exact idle m le_rfl
  exact Bool.false_ne_true ((busy m (same m later)).symm.trans seen)

/-- From the end of an image on, all images that follow are sent and drained. -/
theorem host_finishes_images {images : List (List Index)} {φ : HostPhase} {n : Nat}
    (start : (hostAt es h s (k + n)).1 = HostSide.nextImage ⟨φ, images⟩) :
    ∃ m, (hostAt es h s (k + m)).1.phase = .done := by
  induction images generalizing φ n with
  | nil => exact ⟨n, by rw [start, nextImage_nil]⟩
  | cons p ps ih =>
    rw [nextImage_cons] at start
    obtain ⟨m, sent⟩ := host_sends_image fair offered live hb start
    obtain ⟨m', drained⟩ := host_drains fair live hb sent
    exact ih drained

end

/-- Settles O56: after its boot edges the host turns to its first image, and every image comes to its end. -/
theorem hostFinishes : Obligations.HostFinishes := by
  unfold Obligations.HostFinishes
  intro more images es s fair offered
  obtain ⟨start, booted⟩ := hostAt_booted es more images s
  have live : ∀ n, (hostAt es (.atPowerOn more images) s (more + 1)).1.phase ≠ .boot n := fun n => by
    rw [start]; exact nextImage_ne_boot _ n
  obtain ⟨m, done⟩ := host_finishes_images fair offered live booted (n := 0) start
  exact ⟨more + 1 + m, done⟩

end Sys2Proof.Machine
end

section
/-! The run of an image in the record (42_top_level.md R136, R190): where an image's output stands among the events, and how the
record splits into the runs of images that have ended. -/

namespace Sys2Proof.Machine

/-! ### Reading an image's output off the record -/

section
variable {evs : List PortEvent}

@[simp] theorem filterMap_byte_word (w : InWord) (evs : List PortEvent) :
    (PortEvent.word w :: evs).filterMap PortEvent.byte? = evs.filterMap PortEvent.byte? := rfl

@[simp] theorem filterMap_byte_idle (evs : List PortEvent) :
    (PortEvent.idle :: evs).filterMap PortEvent.byte? = evs.filterMap PortEvent.byte? := rfl

theorem filterMap_word_eq_nil (h : ∀ ev ∈ evs, ev.word? = none) : evs.filterMap PortEvent.word? = [] :=
  List.filterMap_eq_nil_iff.mpr h

/-- Events without a FLUSH word do not end an image. -/
theorem afterFlush_append (h : ∀ w ∈ evs.filterMap PortEvent.word?, inFlag w = false) (rest : List PortEvent) :
    afterFlush (evs ++ rest) = afterFlush rest := by
  induction evs with
  | nil => rfl
  | cons ev evs ih =>
    cases ev with
    | word w =>
      have flag : inFlag w = false := h w (List.mem_cons_self)
      have tail := ih fun x hx => h x (List.mem_cons_of_mem w hx)
      rw [List.cons_append, afterFlush, flag, if_neg Bool.false_ne_true, tail]
    | byte | rst | idle => exact ih h

/-- Before the first word of an image nothing counts. -/
theorem imageOutput_append_of_no_word (h : ∀ ev ∈ evs, ev.word? = none) (k : Nat) (rest : List PortEvent) :
    imageOutput k (evs ++ rest) = imageOutput k rest := by
  cases k with
  | zero =>
    have skipped : (evs ++ rest).dropWhile (fun ev => ev.word?.isNone) = rest.dropWhile fun ev => ev.word?.isNone :=
      List.dropWhile_append_of_pos fun ev hev => by rw [h ev hev]; rfl
    rw [imageOutput, skipped, imageOutput]
  | succ k =>
    have skipped := afterFlush_append (evs := evs) (rest := rest) (by rw [filterMap_word_eq_nil h]; simp)
    rw [imageOutput, skipped, imageOutput]

/-- Up to its FLUSH word an image's events only collect bytes, its words and the cycles in which `idle` was 1 counting nothing. -/
theorem bytesToRunEnd_before_flush (noRst : .rst ∉ evs) (h : ∀ w ∈ evs.filterMap PortEvent.word?, inFlag w = false)
    (rest : List PortEvent) :
    bytesToRunEnd false (evs ++ rest) = (bytesToRunEnd false rest).map (evs.filterMap PortEvent.byte? ++ ·) := by
  induction evs with
  | nil => simp
  | cons ev evs ih =>
    obtain ⟨notRst, noRst'⟩ := List.ne_and_not_mem_of_not_mem_cons noRst
    cases ev with
    | word w =>
      have flag : inFlag w = false := h w (List.mem_cons_self)
      have tail := ih noRst' fun x hx => h x (List.mem_cons_of_mem w hx)
      rw [List.cons_append, bytesToRunEnd, flag, Bool.or_false, tail]
      rfl
    | byte b =>
      rw [List.cons_append, bytesToRunEnd, ih noRst' h, Option.map_map]
      rfl
    | rst => exact absurd rfl notRst
    | idle => exact ih noRst' h

/-- Behind the FLUSH word they do so until `idle`. -/
theorem bytesToRunEnd_after_flush (noRst : .rst ∉ evs) (noIdle : .idle ∉ evs) (rest : List PortEvent) :
    bytesToRunEnd true (evs ++ rest) = (bytesToRunEnd true rest).map (evs.filterMap PortEvent.byte? ++ ·) := by
  induction evs with
  | nil => simp
  | cons ev evs ih =>
    obtain ⟨notRst, noRst'⟩ := List.ne_and_not_mem_of_not_mem_cons noRst
    obtain ⟨notIdle, noIdle'⟩ := List.ne_and_not_mem_of_not_mem_cons noIdle
    cases ev with
    | word w =>
      rw [List.cons_append, bytesToRunEnd, Bool.true_or, ih noRst' noIdle']
      rfl
    | byte b =>
      rw [List.cons_append, bytesToRunEnd, ih noRst' noIdle', Option.map_map]
      rfl
    | rst => exact absurd rfl notRst
    | idle => exact absurd rfl notIdle

end

/-- The events of one image from its first word to the end of its run: `before` its FLUSH word and `behind` it. -/
structure ImageRun (before behind : List PortEvent) : Prop where
  startsWithWord : ∃ x evs, before ++ [.word Config.sent] = .word x :: evs
  noFlush : ∀ w ∈ before.filterMap PortEvent.word?, inFlag w = false
  noWord : ∀ ev ∈ behind, ev.word? = none
  noIdle : .idle ∉ behind

section
variable {before behind : List PortEvent} (h : ImageRun before behind) (rest : List PortEvent)
include h

/-- The output of an image whose run has ended. -/
theorem imageOutput_of_run (noRst : .rst ∉ before ++ .word Config.sent :: behind) :
    imageOutput 0 (before ++ .word Config.sent :: (behind ++ .idle :: rest)) =
      some (before.filterMap PortEvent.byte? ++ behind.filterMap PortEvent.byte?) := by
  obtain ⟨x, evs, first⟩ := h.startsWithWord
  have start : before ++ .word Config.sent :: (behind ++ .idle :: rest) = .word x :: (evs ++ (behind ++ .idle :: rest)) := by
    rw [List.append_cons before, first, List.cons_append]
  have kept : (before ++ .word Config.sent :: (behind ++ .idle :: rest)).dropWhile (fun ev => ev.word?.isNone) =
      before ++ .word Config.sent :: (behind ++ .idle :: rest) := by
    rw [start]
    rfl
  have noRstBefore : .rst ∉ before := fun mem => noRst (List.mem_append_left _ mem)
  have noRstBehind : .rst ∉ behind := fun mem => noRst (List.mem_append_right _ (List.mem_cons_of_mem _ mem))
  rw [imageOutput, kept, bytesToRunEnd_before_flush noRstBefore h.noFlush, bytesToRunEnd, inFlag_sent, Bool.or_true,
    bytesToRunEnd_after_flush noRstBehind h.noIdle, bytesToRunEnd, Option.map_some, Option.map_some, List.append_nil]

/-- The images after it. -/
theorem imageOutput_succ_of_run (k : Nat) :
    imageOutput (k + 1) (before ++ .word Config.sent :: (behind ++ .idle :: rest)) = imageOutput k rest := by
  have idle : ∀ ev ∈ behind ++ [.idle], ev.word? = none :=
    List.forall_mem_append.mpr ⟨h.noWord, List.forall_mem_singleton.mpr rfl⟩
  have skipped := imageOutput_append_of_no_word idle k rest
  rw [List.append_assoc] at skipped
  rw [imageOutput, afterFlush_append h.noFlush, afterFlush, inFlag_sent, if_pos rfl]
  exact skipped

end

/-! ### Runs that have ended -/

/-- The record `evs` is that of the images `done`: their words, their bytes, each image's output fixed whatever comes behind, and
the next image's still to come. -/
structure RunsEnded (evs : List PortEvent) (done : List (List Index)) : Prop where
  words : evs.filterMap PortEvent.word? = done.flatMap imageWords
  bytes : evs.filterMap PortEvent.byte? = done.flatMap encodeImage
  output : ∀ k p, done[k]? = some p → ∀ rest, imageOutput k (evs ++ rest) = some (encodeImage p)
  next : ∀ k rest, imageOutput (done.length + k) (evs ++ rest) = imageOutput k rest

theorem runsEnded_nil : RunsEnded [] [] where
  words := rfl
  bytes := rfl
  output k p h := by cases h
  next k rest := by rw [List.length_nil, Nat.zero_add]; rfl

/-- `idle` may be seen again and again before the next image. -/
theorem RunsEnded.idle {evs : List PortEvent} {done : List (List Index)} (h : RunsEnded evs done) :
    RunsEnded (evs ++ [.idle]) done where
  words := by rw [List.filterMap_append, h.words]; exact List.append_nil _
  bytes := by rw [List.filterMap_append, h.bytes]; exact List.append_nil _
  output k p hk rest := by rw [List.append_assoc]; exact h.output k p hk _
  next k rest := by
    rw [List.append_assoc, h.next]
    exact imageOutput_append_of_no_word (List.forall_mem_singleton.mpr rfl) k rest

/-- One more image's run ends. -/
theorem RunsEnded.concat {evs before behind : List PortEvent} {done : List (List Index)} {p : List Index}
    (h : RunsEnded evs done) (run : ImageRun before behind) (noRst : .rst ∉ before ++ .word Config.sent :: behind)
    (words : before.filterMap PortEvent.word? = p.map segWord)
    (bytes : before.filterMap PortEvent.byte? ++ behind.filterMap PortEvent.byte? = encodeImage p) :
    RunsEnded (evs ++ (before ++ .word Config.sent :: (behind ++ [.idle]))) (done ++ [p]) where
  words := by
    have noWord := filterMap_word_eq_nil run.noWord
    simp [h.words, words, noWord, imageWords, PortEvent.word?]
  bytes := by
    simp [h.bytes, ← bytes]
  output k q hk rest := by
    have split : evs ++ (before ++ .word Config.sent :: (behind ++ [.idle])) ++ rest =
        evs ++ (before ++ .word Config.sent :: (behind ++ .idle :: rest)) := by simp
    rw [split]
    obtain earlier | ⟨rfl, rfl⟩ : done[k]? = some q ∨ (done.length = k ∧ p = q) := by
      rw [List.getElem?_append] at hk
      split at hk
      · exact .inl hk
      · next later =>
        obtain ⟨last, rfl⟩ := List.getElem?_eq_some_iff.mp hk
        rw [List.length_singleton] at last
        exact .inr ⟨by omega, by simp⟩
    · exact h.output k q earlier _
    · have now := h.next 0 (before ++ .word Config.sent :: (behind ++ .idle :: rest))
      rw [Nat.add_zero] at now
      rw [now, imageOutput_of_run run rest noRst, bytes]
  next k rest := by
    have split : evs ++ (before ++ .word Config.sent :: (behind ++ [.idle])) ++ rest =
        evs ++ (before ++ .word Config.sent :: (behind ++ .idle :: rest)) := by simp
    rw [split, List.length_append, List.length_singleton, Nat.add_assoc, Nat.add_comm 1 k, h.next,
      imageOutput_succ_of_run run rest k]

end Sys2Proof.Machine
end

section
/-! Host and block side by side (70_reset_and_hazards.md R183, R185): at every edge the record consists of the runs of the images the
host has done and the events of the one it is at. -/

namespace Sys2Proof.Machine

/-! ### What an edge adds to the record -/

theorem rst_notMem_sinceReset (s : State) : .rst ∉ s.sinceReset := fun mem => by
  have seen := List.mem_takeWhile_imp (List.mem_reverse.mp mem)
  exact absurd seen (by decide)

theorem finishStep_sinceReset {e : Edge} {s t : State} (run : finishStep e s = .next t) : t.sinceReset = s.sinceReset := by
  obtain ⟨-, stays⟩ | ⟨w, -, -, completes⟩ := finishStep_cases e s
  · cases stays.symm.trans run; rfl
  · have trace : t.trace = s.trace := (exec_trace (completes.symm.trans run) :)
    rw [State.sinceReset, State.sinceReset, trace]

/-- First `idle`, if it was 1, or else the byte transferred, if any; then the word accepted, if any (R163, R190). -/
theorem edge_record {e : Edge} {s t : State} (hb : s.booted = true) (rst : e.rst = false)
    (run : step (s.setPending [.edge e]) = .next t) :
    ∃ seen, t.sinceReset = s.sinceReset ++ (seen ++ if accepts e s then [.word e.inData] else []) ∧
      (∀ ev ∈ seen, ev.word? = none) ∧ (idleOut e s = true → seen = [.idle]) ∧
      (idleOut e s = false → .idle ∉ seen) := by
  have finish := finishStep_sinceReset (edge_run hb rst run)
  have accepted : ∀ u : State, (acceptIn e (s.setPending []) u).sinceReset =
      u.sinceReset ++ if accepts e s then [.word e.inData] else [] := fun u => by
    obtain ⟨no, same⟩ | ⟨yes, taken⟩ := acceptIn_cases e (s.setPending []) u
    · rw [same, if_neg (show ¬ accepts e s = true from Bool.eq_false_iff.mp no), List.append_nil]
    · rw [taken, sinceReset_log _ PortEvent.noConfusion, if_pos (show accepts e s = true from yes)]
      rfl
  rw [finish, accepted]
  obtain ⟨notIdle, same⟩ | ⟨idle, seen⟩ := watchIdle_cases e (s.setPending [])
  · have notIdle' : idleOut e s = false := notIdle
    rw [same]
    obtain ⟨-, same'⟩ | ⟨b, q, -, -, taken⟩ := transferOut_cases e (s := s.setPending []) hb
    · rw [same']
      exact ⟨[], rfl, by simp, fun idle => absurd (notIdle'.symm.trans idle) Bool.noConfusion, by simp⟩
    · rw [taken, sinceReset_log _ PortEvent.noConfusion]
      exact ⟨[.byte b], List.append_assoc _ _ _, List.forall_mem_singleton.mpr rfl,
        fun idle => absurd (notIdle'.symm.trans idle) Bool.noConfusion, by simp⟩
  · have idle' : idleOut e s = true := idle
    have empty : s.outQ = [] := (idle_iff.mp ((idleOut_of_booted hb).symm.trans idle')).2
    rw [seen]
    obtain ⟨-, same⟩ | ⟨b, q, -, queued, -⟩ := transferOut_cases e (s := (s.setPending []).log .idle) hb
    · rw [same, sinceReset_log _ PortEvent.noConfusion]
      exact ⟨[.idle], List.append_assoc _ _ _, List.forall_mem_singleton.mpr rfl, fun _ => rfl,
        fun notIdle => absurd (notIdle.symm.trans idle') Bool.noConfusion⟩
    · cases empty.symm.trans queued

/-! ### The block between images and at one -/

/-- The block is at rest, and the images `done` are all that it has been sent. -/
structure State.atRest (s : State) (done : List (List Index)) : Prop where
  booted : s.booted = true
  replayed : s.replayed
  free : s.inProgress = none
  empty : s.outQ = []
  ended : RunsEnded s.sinceReset done

/-- Behind the images `done` the words `sent` of another have been accepted, at least one. -/
structure State.within (s : State) (done : List (List Index)) (sent : List InWord) : Prop where
  booted : s.booted = true
  replayed : s.replayed
  record : ∃ evs x now, s.sinceReset = evs ++ .word x :: now ∧ RunsEnded evs done ∧
    (.word x :: now).filterMap PortEvent.word? = sent

/-- Behind the images `done` all words of `p` have been accepted, and `idle` has not been 1 since. -/
structure State.draining (s : State) (done : List (List Index)) (p : List Index) : Prop where
  booted : s.booted = true
  replayed : s.replayed
  record : ∃ evs before behind, s.sinceReset = evs ++ (before ++ .word Config.sent :: behind) ∧ RunsEnded evs done ∧
    ImageRun before behind ∧ before.filterMap PortEvent.word? = p.map segWord

/-- The block while the host sends: it has accepted the words `sent` of an image. -/
def State.sending (s : State) (done : List (List Index)) (sent : List InWord) : Prop :=
  (sent = [] ∧ s.atRest done) ∨ s.within done sent

/-- The words of whole images, from a quiet state, append their encodings to `out_q`. -/
theorem topSteps_images {s : State} (quiet : s.seg.prev = Config.sent) (drained : s.win = .empty) (ps : List (List Index)) :
    (topSteps (ps.flatMap imageWords) s).outQ = s.outQ ++ ps.flatMap encodeImage := by
  induction ps generalizing s with
  | nil => exact (List.append_nil _).symm
  | cons p ps ih =>
    have first : (topSteps (imageWords p) s).outQ = s.outQ ++ encodeImage p := by
      rw [← bytesAfter_image_of_quiet quiet (by rw [drained]; rfl) (by rw [drained]; rfl) (by rw [drained]; rfl),
        bytesAfter_of_execAll (execAll_image p s)]
    have quiet' : (topSteps (imageWords p) s).seg.prev = Config.sent := by
      rw [topSteps_imageWords]; exact nextAll_imageWords_prev p _
    have drained' : (topSteps (imageWords p) s).win = .empty := by
      rw [topSteps_imageWords, pushRanges_win, Window.pushAll_append, pushAll_four_placeholders]
    rw [List.flatMap_cons, topSteps_append, ih quiet' drained', first, List.append_assoc]
    rfl

theorem map_normalise_flatMap_imageWords (ps : List (List Index)) :
    (ps.flatMap imageWords).map normalise = ps.flatMap imageWords := by
  rw [List.map_flatMap]
  exact List.flatMap_congr fun p _ => map_normalise_imageWords p

/-- A block at rest that has accepted whole images has given their encodings. -/
theorem bytesOut_of_images {s : State} {ps : List (List Index)} (replayed : s.replayed) (free : s.inProgress = none)
    (empty : s.outQ = []) (words : s.wordsIn = ps.flatMap imageWords) : s.bytesOut = ps.flatMap encodeImage := by
  obtain ⟨-, t, run, -, -, outQ⟩ := replayed
  rw [wordsDone_of_none free, words, execAll_decodeIn, map_normalise_flatMap_imageWords] at run
  cases run
  rw [State.emittedBytes, empty, List.append_nil, topSteps_images rfl rfl] at outQ
  exact outQ.symm

section
variable {s t : State} {e : Edge} {done : List (List Index)} {sent : List InWord} {p : List Index}
  (rst : e.rst = false) (run : step (s.setPending [.edge e]) = .next t)
include rst run

theorem replayed_of_edge (hb : s.booted = true) (h : s.replayed) : t.replayed :=
  replayed_keptByPorts.toKeptByEdge.edge e (s := s.setPending []) hb h (edge_run hb rst run)

/-- At rest, with no word accepted, the host sees `idle` once more. -/
theorem State.atRest.of_no_word (h : s.atRest done) (quiet : accepts e s = false) : t.atRest done := by
  obtain ⟨seen, record, -, idle, -⟩ := edge_record h.booted rst run
  obtain ⟨bs, given⟩ := gives_of_edge h.booted rst run quiet h.free
  have nothing := given.outQ
  rw [h.empty] at nothing
  obtain ⟨-, empty⟩ := List.append_eq_nil_iff.mp nothing.symm
  rw [idle ((idleOut_of_booted h.booted).trans (idle_iff.mpr ⟨h.free, h.empty⟩)), quiet, if_neg Bool.false_ne_true,
    List.append_nil] at record
  exact ⟨booted_of_edge h.booted rst run, replayed_of_edge rst run h.booted h.replayed, given.inProgress.trans h.free, empty,
    record ▸ h.ended.idle⟩

/-- Within an image, with no word accepted. -/
theorem State.within.of_no_word (h : s.within done sent) (quiet : accepts e s = false) : t.within done sent := by
  obtain ⟨hb, replayed, evs, x, now, before, ended, words⟩ := h
  obtain ⟨seen, record, noWord, -, -⟩ := edge_record hb rst run
  rw [quiet, if_neg Bool.false_ne_true, List.append_nil, before, List.append_assoc, List.cons_append] at record
  refine ⟨booted_of_edge hb rst run, replayed_of_edge rst run hb replayed, evs, x, now ++ seen, record, ended, ?_⟩
  rw [← List.cons_append, List.filterMap_append, words, filterMap_word_eq_nil noWord, List.append_nil]

theorem State.sending.of_no_word (h : s.sending done sent) (quiet : accepts e s = false) : t.sending done sent :=
  h.imp (And.imp_right fun rest => rest.of_no_word rst run quiet) fun within => within.of_no_word rst run quiet

/-- A word accepted while the host sends: the image's events begin with it, if it is the first, or go on. -/
theorem record_of_accepts (h : s.sending done sent) (accepted : accepts e s = true) :
    t.booted = true ∧ t.replayed ∧ ∃ evs before, t.sinceReset = evs ++ (before ++ [.word e.inData]) ∧ RunsEnded evs done ∧
      before.filterMap PortEvent.word? = sent ∧ ∃ x now, before ++ [.word e.inData] = .word x :: now := by
  obtain ⟨rfl, hb, replayed, free, empty, ended⟩ | ⟨hb, replayed, evs, x, now, before, ended, words⟩ := h
  · obtain ⟨seen, record, -, idle, -⟩ := edge_record hb rst run
    rw [idle ((idleOut_of_booted hb).trans (idle_iff.mpr ⟨free, empty⟩)), if_pos accepted, ← List.append_assoc] at record
    exact ⟨booted_of_edge hb rst run, replayed_of_edge rst run hb replayed, _, [], record, ended.idle, rfl, _, _, rfl⟩
  · obtain ⟨seen, record, noWord, -, -⟩ := edge_record hb rst run
    rw [if_pos accepted, before, List.append_assoc, ← List.append_assoc (.word x :: now)] at record
    refine ⟨booted_of_edge hb rst run, replayed_of_edge rst run hb replayed, evs, _, record, ended, ?_, x, _, rfl⟩
    rw [List.filterMap_append, words, filterMap_word_eq_nil noWord, List.append_nil]

theorem State.sending.of_word (h : s.sending done sent) (accepted : accepts e s = true) :
    t.sending done (sent ++ [e.inData]) := by
  obtain ⟨hb, replayed, evs, before, record, ended, words, x, now, start⟩ := record_of_accepts rst run h accepted
  refine .inr ⟨hb, replayed, evs, x, now, start ▸ record, ended, ?_⟩
  rw [← start, List.filterMap_append, words]
  rfl

/-- The FLUSH word accepted: the image drains. -/
theorem State.draining.of_flush (h : s.sending done (p.map segWord)) (accepted : accepts e s = true)
    (flush : e.inData = Config.sent) : t.draining done p := by
  obtain ⟨hb, replayed, evs, before, record, ended, words, start⟩ := record_of_accepts rst run h accepted
  rw [flush] at record start
  refine ⟨hb, replayed, evs, before, [], record, ended, ⟨start, ?_, by simp, by simp⟩, words⟩
  rw [words]
  exact List.forall_mem_map.mpr fun n _ => inFlag_segWord n

/-- While an image drains and `idle` is not 1. -/
theorem State.draining.of_busy (h : s.draining done p) (quiet : accepts e s = false) (busy : idleOut e s = false) :
    t.draining done p := by
  obtain ⟨hb, replayed, evs, before, behind, old, ended, ⟨start, noFlush, noWord, noIdle⟩, words⟩ := h
  obtain ⟨seen, record, noWord', -, noIdle'⟩ := edge_record hb rst run
  rw [quiet, if_neg Bool.false_ne_true, List.append_nil, old, List.append_assoc, List.append_assoc, List.cons_append] at record
  exact ⟨booted_of_edge hb rst run, replayed_of_edge rst run hb replayed, evs, before, behind ++ seen, record, ended,
    ⟨start, noFlush, List.forall_mem_append.mpr ⟨noWord, noWord'⟩,
      fun mem => (List.mem_append.mp mem).elim noIdle (noIdle' busy)⟩, words⟩

/-- The first `idle` after an image's FLUSH ends its run: all its bytes, and no others, have been transferred since its first word. -/
theorem State.draining.of_idle (h : s.draining done p) (quiet : accepts e s = false) (idle : idleOut e s = true) :
    t.atRest (done ++ [p]) := by
  obtain ⟨hb, replayed, evs, before, behind, old, ended, imageRun, words⟩ := h
  obtain ⟨seen, record, -, seenIdle, -⟩ := edge_record hb rst run
  obtain ⟨free, empty⟩ := idle_iff.mp ((idleOut_of_booted hb).symm.trans idle)
  obtain ⟨bs, given⟩ := gives_of_edge hb rst run quiet free
  have nothing := given.outQ
  rw [empty] at nothing
  obtain ⟨-, empty'⟩ := List.append_eq_nil_iff.mp nothing.symm
  have replayed' := replayed_of_edge rst run hb replayed
  have free' := given.inProgress.trans free
  rw [quiet, if_neg Bool.false_ne_true, List.append_nil, seenIdle idle, old, List.append_assoc, List.append_assoc,
    List.cons_append] at record
  have allWords : t.wordsIn = (done ++ [p]).flatMap imageWords := by
    have noWord := filterMap_word_eq_nil imageRun.noWord
    simp [State.wordsIn, record, ended.words, words, noWord, imageWords, PortEvent.word?]
  have allBytes := bytesOut_of_images replayed' free' empty' allWords
  have itsBytes : before.filterMap PortEvent.byte? ++ behind.filterMap PortEvent.byte? = encodeImage p := by
    simpa [State.bytesOut, record, ended.bytes] using allBytes
  have noRst : .rst ∉ before ++ .word Config.sent :: behind := fun mem =>
    rst_notMem_sinceReset s (old ▸ List.mem_append_right _ mem)
  exact ⟨booted_of_edge hb rst run, replayed', free', empty', record ▸ ended.concat imageRun noRst words itsBytes⟩

end

/-! ### Host and block -/

/-- What the block has seen while the host is in a phase. -/
def HostSide.served (images : List (List Index)) (h : HostSide) (s : State) : Prop :=
  match h.phase with
  | .boot _ => h.images = images
  | .send w ws => ∃ done p sent, images = done ++ p :: h.images ∧ imageWords p = sent ++ w :: ws ∧ s.sending done sent
  | .drain => ∃ done p, images = done ++ p :: h.images ∧ s.draining done p
  | .done => s.atRest images

section
variable {images : List (List Index)} {s t : State}

/-- The host turns to the next image of those left, or has done them all. -/
theorem served_nextImage {done ps : List (List Index)} (φ : HostPhase) (split : images = done ++ ps) (h : s.atRest done) :
    (HostSide.nextImage ⟨φ, ps⟩).served images s := by
  cases ps with
  | nil =>
    rw [List.append_nil] at split
    rw [nextImage_nil]
    exact split ▸ h
  | cons p ps =>
    rw [nextImage_cons]
    cases words : imageWords p with
    | nil => exact absurd words (List.append_ne_nil_of_right_ne_nil _ (List.cons_ne_nil _ _))
    | cons w ws => exact ⟨done, p, [], split, words, .inl ⟨rfl, h⟩⟩

/-- The last word of an image is its FLUSH. -/
theorem last_of_imageWords {p : List Index} {sent : List InWord} {w : InWord} (h : imageWords p = sent ++ [w]) :
    sent = p.map segWord ∧ w = Config.sent := by
  obtain ⟨words, last⟩ := List.append_inj' h rfl
  exact ⟨words.symm, (List.cons.inj last).1.symm⟩

/-- One edge of host and block. -/
theorem served_edge {h : HostSide} (d : Edge) (served : h.served images s)
    (run : step (s.setPending [.edge (h.edge d)]) = .next t) : (h.next (h.edge d) s).served images t := by
  obtain ⟨φ, ps⟩ := h
  cases φ with
  | boot n =>
    cases n with
    | succ n => exact served
    | zero =>
      rw [step_rst rfl rfl] at run
      cases run
      have fresh := fresh_resetBlock (watchIdle (HostSide.edge ⟨.boot 0, ps⟩ d)
        ((s.setPending [.edge (HostSide.edge ⟨.boot 0, ps⟩ d)]).setPending []))
      exact served_nextImage (done := []) _ (Eq.symm served)
        ⟨rfl, fresh.replayed, fresh.inProgress, fresh.outQ, fresh.sinceReset ▸ runsEnded_nil⟩
  | send w ws =>
    obtain ⟨done, p, sent, split, words, sending⟩ := served
    cases accepted : accepts (HostSide.edge ⟨.send w ws, ps⟩ d) s with
    | false =>
      rw [next_send_of_not _ _ _ accepted]
      exact ⟨done, p, sent, split, words, sending.of_no_word rfl run accepted⟩
    | true =>
      rw [next_send_of_accepts _ _ _ accepted]
      cases ws with
      | nil =>
        obtain ⟨rfl, rfl⟩ := last_of_imageWords words
        exact ⟨done, p, split, State.draining.of_flush rfl run sending accepted rfl⟩
      | cons v ws =>
        rw [← List.singleton_append, ← List.append_assoc] at words
        exact ⟨done, p, _, split, words, sending.of_word rfl run accepted⟩
  | drain =>
    obtain ⟨done, p, split, draining⟩ := served
    have quiet : accepts (HostSide.edge ⟨.drain, ps⟩ d) s = false := rfl
    cases idle : idleOut (HostSide.edge ⟨.drain, ps⟩ d) s with
    | false =>
      rw [next_drain_of_not _ idle]
      exact ⟨done, p, split, draining.of_busy rfl run quiet idle⟩
    | true =>
      rw [next_drain_of_idle _ idle]
      exact served_nextImage _ (by rw [split, List.append_assoc]; rfl) (draining.of_idle rfl run quiet idle)
  | done => exact State.atRest.of_no_word rfl run served rfl

/-- Any number of edges. -/
theorem served_hostRun {h : HostSide} (ds : List Edge) (served : h.served images s) :
    (hostRun ds h s).1.served images (hostRun ds h s).2 := by
  induction ds generalizing h s with
  | nil => exact served
  | cons d ds ih =>
    obtain ⟨t, run⟩ := step_total (s.setPending [.edge (h.edge d)])
    rw [hostRun_cons ds run]
    exact ih (served_edge d served run)

end

/-- Settles O55: when the host is done, the block is at rest behind all its images. -/
theorem hostGetsItsImages : Obligations.HostGetsItsImages := by
  unfold Obligations.HostGetsItsImages
  intro more images ds s t h run finished
  have served := served_hostRun (images := images) (h := .atPowerOn more images) (s := s) ds rfl
  rw [run, HostSide.served, finished] at served
  obtain ⟨hb, -, free, empty, ended⟩ := served
  refine ⟨hb, idle_iff.mpr ⟨free, empty⟩, ended.bytes, fun k p hk => ?_⟩
  have output := ended.output k p hk []
  rwa [List.append_nil] at output

end Sys2Proof.Machine
end
